-- ==== Sys2Proof/Word.lean ====
section
/-! DEFINITION. The words of the block: the widths the spec names. -/

namespace Sys2Proof

/-- One character cell, an 8-bit code (30_encoding.md R39; CHAR_BITS, 00_scope.md R4). -/
abbrev Byte := BitVec 8

/-- One 16-bit chunk, the operand of the syllable encoder (30_encoding.md R43; SYL_BITS, R4). -/
abbrev Chunk := BitVec 16

/-- The width of OPA and RES (10_state.md R15, R18). -/
abbrev Value := BitVec 128

end Sys2Proof
end

