-- ==== Sys2Proof/Config.lean ====
section
/-! DEFINITION. What the machine is configured with: the free values of the behaviour the spec leaves
open (93_implementation_defined.md U2, U4). The source has "no configuration" (00_scope.md R4), and every
parameter R4 fixes stands beside the operation that uses it, in Machine/. MAX_LEN is unbounded
(log 12) and LATENCY is not modelled (log 13), so neither has a constant here. -/

namespace Sys2Proof

/-- Free value number `n`: the contents of a register, a result or a read whose value the spec calls
unspecified (U2, U4; log 10). It has no body: nothing can be proved of it. -/
opaque Config.freeValue : Nat → Value

/-- Free index number `n`: the same for the one natural-number register, CUR (log 10). -/
opaque Config.freeIndex : Nat → Nat

end Sys2Proof
end

