-- ==== Sys2Proof/Syntax.lean ====
section
/-! DEFINITION. The instructions, one constructor per row of spec/opcode_table.json, and the words of the
three formats they are encoded in (30_encoding.md R43, R47, R48). -/

namespace Sys2Proof

/-- One constructor per row of the opcode table. A CMD operation reads its operand from OPA or from
TLEN and TIB, so it has no field; DECB's start index and SYLENC's 16-bit value come with the command. -/
inductive Instr where
  /-- `ENC.U16`, 42_integer_adapters.md R67. -/
  | encU16
  /-- `ENC.U32`, 42_integer_adapters.md R68. -/
  | encU32
  /-- `ENC.U64`, 42_integer_adapters.md R69. -/
  | encU64
  /-- `ENC.IP4`, 43_ipv4_adapter.md R75. -/
  | encIp4
  /-- `ENC.IP6`, 44_ipv6_adapter.md R78. -/
  | encIp6
  /-- `DEC.U16`, 42_integer_adapters.md R70. -/
  | decU16
  /-- `DEC.U32`, 42_integer_adapters.md R71. -/
  | decU32
  /-- `DEC.U64`, 42_integer_adapters.md R72. -/
  | decU64
  /-- `DEC.IP4`, 43_ipv4_adapter.md R76. -/
  | decIp4
  /-- `DEC.IP6`, 44_ipv6_adapter.md R79. -/
  | decIp6
  /-- `DECX.16`, 41_decode_engine.md R59. -/
  | decx16
  /-- `DECX.32`, 41_decode_engine.md R59. -/
  | decx32
  /-- `DECX.64`, 41_decode_engine.md R59. -/
  | decx64
  /-- `DECB.16`, 41_decode_engine.md R60; `start` is ESTART. -/
  | decb16 (start : Nat)
  /-- `DECB.32`, 41_decode_engine.md R60; `start` is ESTART. -/
  | decb32 (start : Nat)
  /-- `DECB.64`, 41_decode_engine.md R60; `start` is ESTART. -/
  | decb64 (start : Nat)
  /-- `SYLENC`, 40_syllable_encoder.md R53; `v` is the 16-bit value. -/
  | sylenc (v : Chunk)
  deriving DecidableEq, Repr

/-- A command as the part of the block that executes it receives it. The formats share no address
space (30_encoding.md R47, R48, R43), so a word says which port it stands at. -/
inductive CodeWord where
  /-- Format CMD: the 4 bits of OP (R47). -/
  | cmd (op : BitVec 4)
  /-- Format ECMD: MODE ‖ WSEL, with the start index ESTART (R48). -/
  | ecmd (code : BitVec 3) (estart : Nat)
  /-- Format SYL: the 16 data bits (R43). -/
  | syl (v : Chunk)
  deriving DecidableEq, Repr

end Sys2Proof
end

