-- ==== Sys2Proof/WellFormed.lean ====
section
/-! DEFINITION. Which command words are legal. An `Instr` needs no check of its own: its operands are
typed, and every start index and every 16-bit value is a legal operand (R60 "`0 <= start`"; R51). -/

namespace Sys2Proof

/-- The field DIR of OP, bit 3: 0 encode, 1 decode (10_state.md R14). -/
def opDir (op : BitVec 4) : BitVec 1 := op.extractLsb' 3 1

/-- The field TYPE of OP, bits 2:0 (10_state.md R14). -/
def opType (op : BitVec 4) : BitVec 3 := op.extractLsb' 0 3

/-- The field MODE of ECMD, bit 2: 0 exact-width, 1 bounded (30_encoding.md R48). -/
def ecmdMode (code : BitVec 3) : BitVec 1 := code.extractLsb' 2 1

/-- The field WSEL of ECMD, bits 1:0 (30_encoding.md R48). -/
def ecmdWsel (code : BitVec 3) : BitVec 2 := code.extractLsb' 0 2

/-- TYPE names one of the five types; 5 to 7 are reserved (30_encoding.md R50). -/
def typeLegal (op : BitVec 4) : Bool := (opType op).toNat ≤ 4

/-- WSEL names a width; 3 is reserved (30_encoding.md R48, R50). -/
def wselLegal (code : BitVec 3) : Bool := ecmdWsel code ≠ 3

/-- The exact mode (MODE = 0) starts at cell 0: R48's table gives its ESTART as 0. -/
def startLegal (code : BitVec 3) (estart : Nat) : Bool := ecmdMode code = 1 || estart = 0

/-- A command word that stands in the tables of R47, R48 or R43. -/
def CodeWord.wf : CodeWord → Bool
  | .cmd op => typeLegal op
  | .ecmd code estart => wselLegal code && startLegal code estart
  | .syl _ => true

end Sys2Proof
end

