-- ==== Sys2Proof/Decode.lean ====
section
/-! DEFINITION. The decoder of the three command formats, total and rejecting by name, the encoder, and
the opcode table's words. -/

namespace Sys2Proof

/-- Why a command word is no instruction. -/
inductive DecodeError where
  /-- OP with TYPE 5, 6 or 7 (30_encoding.md R50). -/
  | reservedType
  /-- ECMD with WSEL = 3 (30_encoding.md R50). -/
  | reservedWidth
  /-- An exact-mode ECMD with ESTART other than 0, which R48's table has no row for (log 16). -/
  | startOnExact
  deriving DecidableEq, Repr

/-- Format CMD: OP = DIR ‖ TYPE (30_encoding.md R47, 10_state.md R14). -/
def decodeCmd (op : BitVec 4) : Except DecodeError Instr :=
  match (opDir op).toNat, (opType op).toNat with
  | 0, 0 => .ok .encU16
  | 0, 1 => .ok .encU32
  | 0, 2 => .ok .encU64
  | 0, 3 => .ok .encIp4
  | 0, 4 => .ok .encIp6
  | 1, 0 => .ok .decU16
  | 1, 1 => .ok .decU32
  | 1, 2 => .ok .decU64
  | 1, 3 => .ok .decIp4
  | 1, 4 => .ok .decIp6
  | _, _ => .error .reservedType

/-- Format ECMD: MODE ‖ WSEL with ESTART (30_encoding.md R48). -/
def decodeEcmd (code : BitVec 3) (estart : Nat) : Except DecodeError Instr :=
  match (ecmdMode code).toNat, (ecmdWsel code).toNat with
  | 0, 0 => if estart = 0 then .ok .decx16 else .error .startOnExact
  | 0, 1 => if estart = 0 then .ok .decx32 else .error .startOnExact
  | 0, 2 => if estart = 0 then .ok .decx64 else .error .startOnExact
  | 1, 0 => .ok (.decb16 estart)
  | 1, 1 => .ok (.decb32 estart)
  | 1, 2 => .ok (.decb64 estart)
  | _, _ => .error .reservedWidth

/-- The decoder: total on every command word. -/
def decode : CodeWord → Except DecodeError Instr
  | .cmd op => decodeCmd op
  | .ecmd code estart => decodeEcmd code estart
  | .syl v => .ok (.sylenc v)

/-- The command word of an instruction, from the tables of 30_encoding.md R43, R47, R48. -/
def encode : Instr → CodeWord
  | .encU16 => .cmd 0x0
  | .encU32 => .cmd 0x1
  | .encU64 => .cmd 0x2
  | .encIp4 => .cmd 0x3
  | .encIp6 => .cmd 0x4
  | .decU16 => .cmd 0x8
  | .decU32 => .cmd 0x9
  | .decU64 => .cmd 0xA
  | .decIp4 => .cmd 0xB
  | .decIp6 => .cmd 0xC
  | .decx16 => .ecmd 0b000 0
  | .decx32 => .ecmd 0b001 0
  | .decx64 => .ecmd 0b010 0
  | .decb16 start => .ecmd 0b100 start
  | .decb32 start => .ecmd 0b101 start
  | .decb64 start => .ecmd 0b110 start
  | .sylenc v => .syl v

/-- An 8-bit word of the table. CMD and ECMD both have rows this short and no bit tells them apart, so a
word that is a legal OP is read as OP, and only a word that is none is read as ECMD (log 17). -/
def tableByte (w : Nat) : Option CodeWord :=
  if w < 16 ∧ typeLegal (BitVec.ofNat 4 w) then some (.cmd (BitVec.ofNat 4 w))
  else if w < 8 then some (.ecmd (BitVec.ofNat 3 w) 0)
  else if w < 16 then some (.cmd (BitVec.ofNat 4 w))
  else none

/-- The command word a table row of `nbits` bits stands for, every bit above `nbits` being 0, so ESTART
is 0 (log 17). The 24-bit form is ECMD: opcode_table.json puts a one-bit field named N at bit 16 of DECX.16
and DECB.16, where the spec's words have only the constant N = 16; that bit carries nothing. -/
def tableWord (nbits w : Nat) : Option CodeWord :=
  if nbits = 24 then
    if w % 65536 < 8 ∧ w / 65536 ≤ 1 then some (.ecmd (BitVec.ofNat 3 w) 0) else none
  else if nbits = 16 then
    if w < 65536 then some (.syl (BitVec.ofNat 16 w)) else none
  else if nbits = 3 then
    if w < 8 then some (.ecmd (BitVec.ofNat 3 w) 0) else none
  else tableByte w

/-- The instruction the decoder reads from an instruction of the opcode table (log 17). -/
def decodeTableWord (nbits w : Nat) : Option Instr :=
  match tableWord nbits w with
  | none => none
  | some cw =>
    match decode cw with
    | .ok i => some i
    | .error _ => none

end Sys2Proof
end

