-- ==== Sys2Proof/Machine/State.lean ====
section
/-! DEFINITION. The machine's state as plain data (10_state.md R10), the reasons a step can stop, and the
state after reset (R24, R99). -/

namespace Sys2Proof.Machine

/-- A text buffer: the cells that hold a value, as (index, character) pairs, indices strictly rising
(20_memory.md R25). A cell not listed holds no value (log 4). -/
abbrev Memory := List Host.Cell

/-- The three error kinds (60_exceptions.md R83). -/
inductive ErrKind where
  | inputTooSmall
  | inputTooLarge
  | inputInvalid
  deriving DecidableEq, Repr

/-- The target widths N of the decode engine (WIDTHS, 00_scope.md R4). -/
inductive Width where
  | w16
  | w32
  | w64
  deriving DecidableEq, Repr

/-- The result of DECX (41_decode_engine.md R59): `Ok(value, count)` or `Err`. The N-bit value is held
zero-extended to 64 bits. -/
inductive ExactResult where
  | ok (value : BitVec 64) (count : Nat)
  | err (e : ErrKind)
  deriving DecidableEq, Repr

/-- The result of DECB (41_decode_engine.md R60): `Ok(value, count, idx)` or `Err`. -/
inductive BoundedResult where
  | ok (value : BitVec 64) (count : Nat) (idx : Nat)
  | err (e : ErrKind)
  deriving DecidableEq, Repr

/-- What a procedure run by a step of its own returned to its caller (log 15). -/
inductive Ret where
  | exact (r : ExactResult)
  | bounded (r : BoundedResult)
  | syllable (s : List Byte)
  deriving DecidableEq, Repr

/-- The input registers a Start can find unwritten (10_state.md R24; TIB's cells carry their own mark, log 4). -/
inductive InputRegister where
  | op
  | opa
  | tlen
  deriving DecidableEq, Repr

/-- Which input registers the host has written since reset (10_state.md R24 "holds no value"; log 5). -/
structure Written where
  op : Bool
  opa : Bool
  tlen : Bool
  deriving DecidableEq, Repr

/-- What the host can read (10_state.md R17 to R20, 20_memory.md R25). -/
inductive OutPort where
  | status
  | res
  | olen
  | busy
  | done
  | tob (i : Nat)
  deriving DecidableEq, Repr

/-- One move of one agent (10_state.md R9, 70_reset_and_hazards.md R93; log 2). -/
inductive Move where
  /-- The host writes OP. -/
  | writeOp (v : BitVec 4)
  /-- The host writes OPA. -/
  | writeOpa (v : Value)
  /-- The host writes TLEN. -/
  | writeTlen (n : Nat)
  /-- The host writes one cell of TIB. -/
  | writeTib (i : Nat) (c : Byte)
  /-- The host gives Start. -/
  | start
  /-- The host resets the block (R99). -/
  | reset
  /-- The host reads an output. -/
  | read (p : OutPort)
  /-- The block's turn: an operation in progress runs to Complete. -/
  | run
  /-- composite_codec_mux gives the decode engine a micro-command (30_encoding.md R48; log 15). -/
  | engine (code : BitVec 3) (estart : Nat)
  /-- composite_codec_mux gives the syllable encoder a value (30_encoding.md R43; log 15). -/
  | syllable (v : Chunk)
  deriving DecidableEq, Repr

/-- The registers of the decode engine, as one value while a procedure runs (10_state.md R12, R22). -/
structure Engine where
  acc : BitVec 64
  bitcnt : BitVec 7
  cur : Nat
  deriving DecidableEq, Repr

/-- The complete state of the block (10_state.md R10), and below it the model's own fields. -/
structure State where
  /-- OP, R14. -/
  op : BitVec 4
  /-- OPA, R15. -/
  opa : Value
  /-- TLEN, R16. -/
  tlen : Nat
  /-- TIB, 20_memory.md R25. -/
  tib : Memory
  /-- STATUS, R17. -/
  status : BitVec 2
  /-- RES, R18. -/
  res : Value
  /-- OLEN, R19. -/
  olen : BitVec 6
  /-- TOB, 20_memory.md R25. -/
  tob : Memory
  /-- BUSY, R20. -/
  busy : Bool
  /-- DONE, R20. -/
  done : Bool
  /-- W, R21. -/
  w : BitVec 16
  /-- ACC, R22. -/
  acc : BitVec 64
  /-- BITCNT, R22. -/
  bitcnt : BitVec 7
  /-- CUR, R12. -/
  cur : Nat
  /-- SEG[0..7], R23. -/
  seg : Vector (BitVec 16) 8
  /-- The model's own: the moves still to be made, the next one first (log 2). -/
  pending : List Move
  /-- The model's own: what the host's last read delivered (log 9). -/
  hostData : Value
  /-- The model's own: what a procedure run by a step of its own last returned (log 15). -/
  ret : Option Ret
  /-- The model's own: which of OP, OPA and TLEN hold a value the host wrote since reset (R24, log 5). -/
  written : Written
  /-- The model's own: the host wrote an input while this operation was running (log 8). -/
  spoiled : Bool
  /-- The model's own: how many free values have been drawn (log 10). -/
  free : Nat
  deriving DecidableEq, Repr

/-- Why the machine stops with a fault. All are safe: the spec gives no value to go on with. -/
inductive Fault where
  /-- A decode reads a TIB cell that no one has written since reset: U3 "fault (read of a register that
  holds no value)". Raised by `textRead`, and by the host's start move of a decode. Safe. -/
  | unwrittenCell (i : Nat)
  /-- Start of an operation that reads an input register no one has written since reset: U3 "fault (read of a
  register that holds no value)", 10_state.md R24, 70_reset_and_hazards.md R94. Raised by the host's start move;
  no instruction reaches it. Safe. -/
  | unwrittenInput (r : InputRegister)
  /-- TextRead at or beyond TLEN, outside its precondition (20_memory.md R27). Raised by `textRead`; no
  instruction reaches it. Safe. -/
  | readPastText (i : Nat)
  /-- TextWrite at or beyond cell 47, outside its precondition (20_memory.md R28). Raised by `textWrite`; no
  instruction reaches it. Safe. -/
  | writePastBuffer (i : Nat)
  /-- The host reads a TOB cell at or beyond 47, which does not exist (20_memory.md R25). Raised by the
  host's read move. Safe. -/
  | noSuchOutputCell (i : Nat)
  deriving DecidableEq, Repr

/-- Why a step has no meaning. All are safe: the spec itself tells a model to refuse. -/
inductive Refusal where
  /-- An instruction without a meaning yet. Raised by exec's refused arms only. Safe. -/
  | notModelled (mnemonic : String)
  /-- Start with a reserved OP: R50 "a model should give such a Start no meaning (refuse)"; U1. Raised by the
  host's start move. Safe. -/
  | reservedOp (op : BitVec 4)
  /-- Start while BUSY = 1: R95 "A model should refuse both"; U1. Raised by the host's start move. Safe. -/
  | startWhileBusy
  /-- A micro-command that is no row of R48 (WSEL = 3: U7 "refuse"; ESTART on an exact command: log 16).
  Raised by the mux's engine move. Safe. -/
  | reservedMicroCommand (code : BitVec 3) (estart : Nat)
  deriving DecidableEq, Repr

/-- The block right after reset (R24, R99): BUSY = 0, DONE = 0, no text cell holds a value, no input
register has been written. The spec states no reset value for the other registers: zero, DESIGN CHOICE (log 3). -/
def State.reset : State where
  op := 0
  opa := 0
  tlen := 0
  tib := []
  status := 0
  res := 0
  olen := 0
  tob := []
  busy := false
  done := false
  w := 0
  acc := 0
  bitcnt := 0
  cur := 0
  seg := Vector.replicate 8 0
  pending := []
  hostData := 0
  ret := none
  written := ⟨false, false, false⟩
  spoiled := false
  free := 0

end Sys2Proof.Machine
end

