-- ==== Sys2Proof/Machine/Operands.lean ====
section
/-! DEFINITION. Characters, alphabets and operand layouts (30_encoding.md), and the constants of
00_scope.md R4 that the operations use. -/

namespace Sys2Proof.Machine

/-- SEP, the character the encoders write between syllables: `-`, 0x2D (R4, R39). -/
def separator : Byte := 0x2D

/-- SYL_CHARS, characters per syllable (R4). -/
def sylChars : Nat := 5

/-- TOB_SIZE, cells of the text output buffer (R4, R25). -/
def tobSize : Nat := 47

/-- RESUME_SKIP, cells from a segment's last character to the next scan's start (R4; decision D10; log 14). -/
def resumeSkip : Nat := 1

/-- The consonant alphabet `bdfghjklmnprstvz` in index order (R40), in the codes of R39. -/
def consTable : List Byte :=
  [0x62, 0x64, 0x66, 0x67, 0x68, 0x6A, 0x6B, 0x6C, 0x6D, 0x6E, 0x70, 0x72, 0x73, 0x74, 0x76, 0x7A]

/-- The vowel alphabet `aiou` in index order (R41), in the codes of R39. -/
def vowTable : List Byte := [0x61, 0x69, 0x6F, 0x75]

/-- `CONS[i]` (R40). -/
def consChar (i : BitVec 4) : Byte := consTable[i.toNat]'i.isLt

/-- `VOW[j]` (R41). -/
def vowChar (j : BitVec 2) : Byte := vowTable[j.toNat]'j.isLt

/-- The class of a character (R42). -/
inductive CharClass where
  | cons (i : BitVec 4)
  | vow (j : BitVec 2)
  | other
  deriving DecidableEq, Repr

/-- CLASSIFY, total on all 256 codes (41_decode_engine.md R56). -/
def classify (c : Byte) : CharClass :=
  match consTable.idxOf? c with
  | some i => .cons (BitVec.ofNat 4 i)
  | none =>
    match vowTable.idxOf? c with
    | some j => .vow (BitVec.ofNat 2 j)
    | none => .other

/-- The number of bits of a width (R4, WIDTHS; WSEL, R48). -/
def Width.bits : Width → Nat
  | .w16 => 16
  | .w32 => 32
  | .w64 => 64

/-- Chunk `k` of a value of `n` chunks, k = 0 the top one: `v[16n-1-16k : 16n-16-16k]` (20_memory.md R30,
42_integer_adapters.md R66). -/
def chunk {len : Nat} (v : BitVec len) (n k : Nat) : Chunk := v.extractLsb' (16 * n - 16 - 16 * k) 16

/-- The operand of ENC.U16: `OPA[15:0]` (R45). -/
def operandU16 (s : State) : BitVec 16 := s.opa.extractLsb' 0 16

/-- The operand of ENC.U32: `OPA[31:0]` (R45). -/
def operandU32 (s : State) : BitVec 32 := s.opa.extractLsb' 0 32

/-- The operand of ENC.U64: `OPA[63:0]` (R45). -/
def operandU64 (s : State) : BitVec 64 := s.opa.extractLsb' 0 64

/-- Octet `k` of an IPv4 operand, octet 0 at `OPA[31:24]` (R45). -/
def operandOctet (s : State) (k : Nat) : BitVec 8 := s.opa.extractLsb' (24 - 8 * k) 8

/-- The four octets packed, `o0 ‖ o1 ‖ o2 ‖ o3` (43_ipv4_adapter.md R75). -/
def operandIp4 (s : State) : BitVec 32 :=
  operandOctet s 0 ++ operandOctet s 1 ++ operandOctet s 2 ++ operandOctet s 3

/-- Segment `k` of an IPv6 operand, `OPA[127-16k : 112-16k]` (R45). -/
def operandSegment (s : State) (k : Nat) : BitVec 16 := s.opa.extractLsb' (112 - 16 * k) 16

/-- The eight segments, `g0 ‖ ... ‖ g7` (44_ipv6_adapter.md R78). -/
def operandIp6 (s : State) : Value :=
  operandSegment s 0 ++ operandSegment s 1 ++ operandSegment s 2 ++ operandSegment s 3 ++
    operandSegment s 4 ++ operandSegment s 5 ++ operandSegment s 6 ++ operandSegment s 7

/-- `SEG[0] ‖ SEG[1] ‖ ... ‖ SEG[7]` (R46, 44_ipv6_adapter.md R79). -/
def joinSegments (seg : Vector (BitVec 16) 8) : Value :=
  seg[0] ++ seg[1] ++ seg[2] ++ seg[3] ++ seg[4] ++ seg[5] ++ seg[6] ++ seg[7]

/-- Octet `k` of an IPv4 result, octet 0 at `RES[31:24]` (R46). -/
def resultOctet (s : State) (k : Nat) : BitVec 8 := s.res.extractLsb' (24 - 8 * k) 8

/-- Segment `k` of an IPv6 result, `RES[127-16k : 112-16k]` (R46). -/
def resultSegment (s : State) (k : Nat) : BitVec 16 := s.res.extractLsb' (112 - 16 * k) 16

end Sys2Proof.Machine
end

