-- ==== Sys2Proof/Machine/Flags.lean ====
section
/-! DEFINITION. The block has no flag register (10_state.md R13). What stands in its place: the saturating
count, the one three-way comparison, and the codes of STATUS, its only lasting trace. -/

namespace Sys2Proof.Machine

/-- `BITCNT <- min(BITCNT + k, 127)` (41_decode_engine.md R57). -/
def countBits (b : BitVec 7) (k : Nat) : BitVec 7 := BitVec.ofNat 7 (min (b.toNat + k) 127)

/-- BITCNT against the target width: exactly one of less, equal, greater (R13, R102). -/
def compareCount (b : BitVec 7) (n : Nat) : Ordering :=
  if b.toNat < n then .lt else if b.toNat = n then .eq else .gt

/-- STATUS = OK (30_encoding.md R49). -/
def statusOk : BitVec 2 := 0

/-- The STATUS code of an error kind (30_encoding.md R49, 60_exceptions.md R83). -/
def ErrKind.code : ErrKind → BitVec 2
  | .inputTooSmall => 1
  | .inputTooLarge => 2
  | .inputInvalid => 3

end Sys2Proof.Machine
end

