-- ==== Sys2Proof/Machine/Ops.lean ====
section
/-! DEFINITION. The named operations: the text buffers (20_memory.md), Start and Complete
(70_reset_and_hazards.md R93), raising an error (60_exceptions.md R86). -/

namespace Sys2Proof.Machine

/-- What a cell that is not listed reads as: no value (10_state.md R24, U3, U4; log 4). -/
def Memory.unlisted : Option Byte := none

/-- The value a cell holds. -/
def Memory.read : Memory → Nat → Option Byte
  | [], _ => Memory.unlisted
  | (b, u) :: m, a => if b = a then some u else Memory.read m a

/-- Store a character in a cell, keeping the indices strictly rising. -/
def Memory.write : Memory → Nat → Byte → Memory
  | [], a, v => [(a, v)]
  | (b, u) :: m, a, v =>
    if a < b then (a, v) :: (b, u) :: m
    else if a = b then (a, v) :: m
    else (b, u) :: Memory.write m a v

/-- The canonical form: indices strictly rising. No entry can equal what an unlisted cell reads as, since
that is no value. -/
abbrev Memory.wf (m : Memory) : Prop := m.Pairwise (fun x y => x.1 < y.1)

/-- TextRead(i): `TIB[i]`, defined for `0 <= i < TLEN` (20_memory.md R27). -/
def textRead (s : State) (i : Nat) : Except Fault Byte :=
  if i < s.tlen then
    match Memory.read s.tib i with
    | some c => .ok c
    | none => .error (.unwrittenCell i)
  else .error (.readPastText i)

/-- TextWrite(i, c): `TOB[i] <- c`, defined for `0 <= i < 47` (20_memory.md R28). -/
def textWrite (tob : Memory) (i : Nat) (c : Byte) : Except Fault Memory :=
  if i < tobSize then .ok (Memory.write tob i c) else .error (.writePastBuffer i)

/-- `for j in 0..: TextWrite(i + j, s[j])` (42_integer_adapters.md R66). -/
def writeText (tob : Memory) (i : Nat) : List Byte → Except Fault Memory
  | [] => .ok tob
  | c :: cs =>
    match textWrite tob i c with
    | .ok tob' => writeText tob' (i + 1) cs
    | .error f => .error f

/-- An accepted Start: `BUSY <- 1, DONE <- 0` (R93 step 3). -/
def accept (s : State) : State := { s with busy := true, done := false, spoiled := false }

/-- Complete: STATUS, RES and OLEN are written and `BUSY <- 0, DONE <- 1`, at once (R93 step 3). -/
def complete (status : BitVec 2) (res : Value) (olen : BitVec 6) (s : State) : State :=
  { s with status := status, res := res, olen := olen, busy := false, done := true }

/-- `raise E`: Complete with STATUS = code(E), RES = 0, OLEN = 0 (60_exceptions.md R86). -/
def raiseErr (e : ErrKind) (s : State) : State := complete e.code 0 0 s

/-- A decode that succeeds: STATUS = OK, RES = the value, OLEN = 0 (10_state.md R18, R19). -/
def completeDecode (v : Value) (s : State) : State := complete statusOk v 0 s

/-- An encode completes: STATUS = OK, RES = 0, OLEN as ENCN left it (10_state.md R17, R18). -/
def completeEncode (s : State) : State := complete statusOk 0 s.olen s

/-- The decode engine's registers out of the state. -/
def State.engine (s : State) : Engine := ⟨s.acc, s.bitcnt, s.cur⟩

/-- The decode engine's registers back into the state. -/
def State.withEngine (s : State) (e : Engine) : State := { s with acc := e.acc, bitcnt := e.bitcnt, cur := e.cur }

end Sys2Proof.Machine
end

