-- ==== Sys2Proof/Machine/DecodeEngine.lean ====
section
/-! DEFINITION. The decode engine (41_decode_engine.md): ACCUM, DECX and DECB, and the micro-commands of
30_encoding.md R48 run by steps of their own. -/

namespace Sys2Proof.Machine

/-- ACCUM(c) (R57). The additions cannot carry; the shifts discard bits above 63. -/
def accum (c : Byte) (e : Engine) : Engine :=
  match classify c with
  | .cons i => { e with acc := (e.acc <<< 4) + i.setWidth 64, bitcnt := countBits e.bitcnt 4 }
  | .vow j => { e with acc := (e.acc <<< 2) + j.setWidth 64, bitcnt := countBits e.bitcnt 2 }
  | .other => e

/-- The value a procedure returns: `ACC[N-1:0]`, zero-extended. -/
def Engine.value (e : Engine) (n : Width) : BitVec 64 := (e.acc.setWidth n.bits).setWidth 64

/-- DECX's scan: `todo` cells, TLEN - CUR of them, remain (R59). -/
def exactScan (s : State) : Nat → Engine → Except Fault Engine
  | 0, e => .ok e
  | todo + 1, e =>
    match textRead s e.cur with
    | .ok c => exactScan s todo { accum c e with cur := e.cur + 1 }
    | .error f => .error f

/-- DECX's one comparison, after the whole text (R59). -/
def exactVerdict (n : Width) (e : Engine) : ExactResult :=
  match compareCount e.bitcnt n.bits with
  | .eq => .ok (e.value n) n.bits
  | .lt => .err .inputTooSmall
  | .gt => .err .inputTooLarge

/-- DECX(N) (R59). -/
def decx (n : Width) (s : State) : Except Fault (Engine × ExactResult) :=
  match exactScan s s.tlen ⟨0, 0, 0⟩ with
  | .ok e => .ok (e, exactVerdict n e)
  | .error f => .error f

/-- DECB's scan: `todo` cells, TLEN - CUR of them, remain (R60). -/
def boundedScan (n : Width) (s : State) : Nat → Engine → Except Fault (Engine × BoundedResult)
  | 0, e => .ok (e, .err .inputTooSmall)
  | todo + 1, e =>
    match textRead s e.cur with
    | .ok c =>
      let e' := accum c e
      match compareCount e'.bitcnt n.bits with
      | .eq => .ok (e', .ok (e'.value n) n.bits e'.cur)
      | .gt => .ok (e', .err .inputInvalid)
      | .lt => boundedScan n s todo { e' with cur := e'.cur + 1 }
    | .error f => .error f

/-- DECB(N, start) (R60). -/
def decb (n : Width) (start : Nat) (s : State) : Except Fault (Engine × BoundedResult) :=
  boundedScan n s (s.tlen - min start s.tlen) ⟨0, 0, min start s.tlen⟩

/-- An exact-mode micro-command: the engine's registers and the result it returns. -/
def runExact (n : Width) (s : State) : Host.Outcome State Fault Refusal :=
  match decx n s with
  | .ok (e, r) => .next { s.withEngine e with ret := some (.exact r) }
  | .error f => .fault f

/-- A bounded-mode micro-command: the engine's registers and the result it returns. -/
def runBounded (n : Width) (start : Nat) (s : State) : Host.Outcome State Fault Refusal :=
  match decb n start s with
  | .ok (e, r) => .next { s.withEngine e with ret := some (.bounded r) }
  | .error f => .fault f

/-- `DECX.16` (R48, R59). -/
def execDecx16 (s : State) : Host.Outcome State Fault Refusal := runExact .w16 s

/-- `DECX.32` (R48, R59). -/
def execDecx32 (s : State) : Host.Outcome State Fault Refusal := runExact .w32 s

/-- `DECX.64` (R48, R59). -/
def execDecx64 (s : State) : Host.Outcome State Fault Refusal := runExact .w64 s

/-- `DECB.16` with ESTART = `start` (R48, R60). -/
def execDecb16 (start : Nat) (s : State) : Host.Outcome State Fault Refusal := runBounded .w16 start s

/-- `DECB.32` with ESTART = `start` (R48, R60; no operation issues it, U8). -/
def execDecb32 (start : Nat) (s : State) : Host.Outcome State Fault Refusal := runBounded .w32 start s

/-- `DECB.64` with ESTART = `start` (R48, R60; no operation issues it, U8). -/
def execDecb64 (start : Nat) (s : State) : Host.Outcome State Fault Refusal := runBounded .w64 start s

end Sys2Proof.Machine
end

