-- ==== Sys2Proof/Machine/Syllable.lean ====
section
/-! DEFINITION. The syllable encoder (40_syllable_encoder.md): the source's loop on W, and the procedure run by
a step of its own. -/

namespace Sys2Proof.Machine

/-- Extraction `k` of R54's loop: the character, and W shifted by the bits just used. -/
def extract (k : Nat) (w : BitVec 16) : Byte × BitVec 16 :=
  if k % 2 = 0 then (consChar (w.extractLsb' 12 4), w <<< 4)
  else (vowChar (w.extractLsb' 14 2), w <<< 2)

/-- The extractions from `k = 5 - todo` on: the characters in order, and W at the end. -/
def extractLoop : Nat → BitVec 16 → List Byte × BitVec 16
  | 0, w => ([], w)
  | todo + 1, w =>
    let step := extract (sylChars - (todo + 1)) w
    let rest := extractLoop todo step.2
    (step.1 :: rest.1, rest.2)

/-- SYLENC(v) on the working register, `W <- v` first (R54): the five characters and the final W. -/
def sylencode (v : Chunk) : List Byte × BitVec 16 := extractLoop sylChars v

/-- `SYLENC`: the syllable encoder alone. It writes W and returns the characters (R53, R54; log 15). -/
def execSylenc (v : Chunk) (s : State) : Host.Outcome State Fault Refusal :=
  .next { s with w := (sylencode v).2, ret := some (.syllable (sylencode v).1) }

end Sys2Proof.Machine
end

