-- ==== Sys2Proof/Machine/IntegerAdapter.lean ====
section
/-! DEFINITION. The integer adapters (42_integer_adapters.md): ENCN, and the six operations on 16, 32 and
64 bits. -/

namespace Sys2Proof.Machine

/-- ENCN's loop from chunk `k = n - todo` on: W and TOB at the end (R66). -/
def encodeLoop {len : Nat} (v : BitVec len) (n : Nat) :
    Nat → BitVec 16 → Memory → Except Fault (BitVec 16 × Memory)
  | 0, w, tob => .ok (w, tob)
  | todo + 1, _, tob =>
    let k := n - (todo + 1)
    let syl := sylencode (chunk v n k)
    match writeText tob (6 * k) syl.1 with
    | .error f => .error f
    | .ok tob1 =>
      if todo = 0 then .ok (syl.2, tob1)
      else
        match textWrite tob1 (6 * k + 5) separator with
        | .error f => .error f
        | .ok tob2 => encodeLoop v n todo syl.2 tob2

/-- ENCN(v, n) (R66): the syllables of v in TOB from cell 0, and `OLEN <- 6n - 1`. -/
def encodeN {len : Nat} (v : BitVec len) (n : Nat) (s : State) : Except Fault State :=
  match encodeLoop v n n s.w s.tob with
  | .ok (w, tob) => .ok { s with w := w, tob := tob, olen := BitVec.ofNat 6 (6 * n - 1) }
  | .error f => .error f

/-- An encode operation: ENCN, then Complete with `RES <- 0`, `STATUS <- OK`. -/
def runEncode {len : Nat} (v : BitVec len) (n : Nat) (s : State) : Host.Outcome State Fault Refusal :=
  match encodeN v n s with
  | .ok s' => .next (completeEncode s')
  | .error f => .fault f

/-- A decode operation of the exact-width kind: one DECX over the whole text (R70 to R72). -/
def runDecode (n : Width) (s : State) : Host.Outcome State Fault Refusal :=
  match decx n s with
  | .ok (e, .ok v _) => .next (completeDecode (v.setWidth 128) (s.withEngine e))
  | .ok (e, .err k) => .next (raiseErr k (s.withEngine e))
  | .error f => .fault f

/-- `ENC.U16` (R67). -/
def execEncU16 (s : State) : Host.Outcome State Fault Refusal := runEncode (operandU16 s) 1 s

/-- `ENC.U32` (R68). -/
def execEncU32 (s : State) : Host.Outcome State Fault Refusal := runEncode (operandU32 s) 2 s

/-- `ENC.U64` (R69). -/
def execEncU64 (s : State) : Host.Outcome State Fault Refusal := runEncode (operandU64 s) 4 s

/-- `DEC.U16` (R70). -/
def execDecU16 (s : State) : Host.Outcome State Fault Refusal := runDecode .w16 s

/-- `DEC.U32` (R71). -/
def execDecU32 (s : State) : Host.Outcome State Fault Refusal := runDecode .w32 s

/-- `DEC.U64` (R72). -/
def execDecU64 (s : State) : Host.Outcome State Fault Refusal := runDecode .w64 s

end Sys2Proof.Machine
end

