-- ==== Sys2Proof/Machine/Ipv4Adapter.lean ====
section
/-! DEFINITION. The IPv4 adapter (43_ipv4_adapter.md): octets packed around the 32-bit paths. -/

namespace Sys2Proof.Machine

/-- `ENC.IP4` (R75): the octets packed big-endian, then ENCN with two chunks. -/
def execEncIp4 (s : State) : Host.Outcome State Fault Refusal := runEncode (operandIp4 s) 2 s

/-- `DEC.IP4` (R76): DECX(32); the split into octets is a reading of RES (30_encoding.md R46). -/
def execDecIp4 (s : State) : Host.Outcome State Fault Refusal := runDecode .w32 s

end Sys2Proof.Machine
end

