-- ==== Sys2Proof/Machine/Ipv6Adapter.lean ====
section
/-! DEFINITION. The IPv6 adapter (44_ipv6_adapter.md): ENCN with eight chunks, and eight bounded decodes. -/

namespace Sys2Proof.Machine

/-- `ENC.IP6` (R78). -/
def execEncIp6 (s : State) : Host.Outcome State Fault Refusal := runEncode (operandIp6 s) 8 s

/-- R79's loop from segment `k = 8 - todo` on, for a resume skip of `skip` cells: the engine's registers and
SEG at the end, and the first error if a call failed. -/
def segmentLoop (skip : Nat) (s : State) :
    Nat → Nat → Engine → Vector (BitVec 16) 8 → Except Fault (Engine × Vector (BitVec 16) 8 × Option ErrKind)
  | 0, _, e, seg => .ok (e, seg, none)
  | todo + 1, start, _, seg =>
    match decb .w16 start s with
    | .ok (e, .ok g _ idx) =>
      segmentLoop skip s todo (idx + skip) e (seg.setIfInBounds (8 - (todo + 1)) (g.setWidth 16))
    | .ok (e, .err k) => .ok (e, seg, some k)
    | .error f => .error f

/-- DEC.IP6 for a resume skip of `skip` cells (R79, R81). -/
def runDecodeIp6 (skip : Nat) (s : State) : Host.Outcome State Fault Refusal :=
  match segmentLoop skip s 8 0 s.engine s.seg with
  | .ok (e, seg, none) => .next (completeDecode (joinSegments seg) { s.withEngine e with seg := seg })
  | .ok (e, seg, some k) => .next (raiseErr k { s.withEngine e with seg := seg })
  | .error f => .fault f

/-- `DEC.IP6` (R79), with RESUME_SKIP = 1. -/
def execDecIp6 (s : State) : Host.Outcome State Fault Refusal := runDecodeIp6 resumeSkip s

end Sys2Proof.Machine
end

