-- ==== Sys2Proof/Machine/Dispatch.lean ====
section
/-! DEFINITION. The meaning of each instruction, one arm per row of the opcode table. -/

namespace Sys2Proof.Machine

def exec (i : Instr) (s : State) : Host.Outcome State Fault Refusal :=
  match i with
  | .encU16 => Sys2Proof.Machine.execEncU16 s
  | .encU32 => Sys2Proof.Machine.execEncU32 s
  | .encU64 => Sys2Proof.Machine.execEncU64 s
  | .encIp4 => Sys2Proof.Machine.execEncIp4 s
  | .encIp6 => Sys2Proof.Machine.execEncIp6 s
  | .decU16 => Sys2Proof.Machine.execDecU16 s
  | .decU32 => Sys2Proof.Machine.execDecU32 s
  | .decU64 => Sys2Proof.Machine.execDecU64 s
  | .decIp4 => Sys2Proof.Machine.execDecIp4 s
  | .decIp6 => Sys2Proof.Machine.execDecIp6 s
  | .decx16 => Sys2Proof.Machine.execDecx16 s
  | .decx32 => Sys2Proof.Machine.execDecx32 s
  | .decx64 => Sys2Proof.Machine.execDecx64 s
  | .decb16 start => Sys2Proof.Machine.execDecb16 start s
  | .decb32 start => Sys2Proof.Machine.execDecb32 start s
  | .decb64 start => Sys2Proof.Machine.execDecb64 start s
  | .sylenc v => Sys2Proof.Machine.execSylenc v s

end Sys2Proof.Machine
end

