-- ==== Sys2Proof/Machine/HostPort.lean ====
section
/-! DEFINITION. What the two agents do between operations: the host's writes, Start, reset and reads
(70_reset_and_hazards.md R93 to R96, R99), which inputs a Start needs (R94), and what the next step is to do. -/

namespace Sys2Proof.Machine

/-- An input written while BUSY = 1 makes the running operation's result unspecified (R94, U2; log 8). -/
def State.spoilIfBusy (s : State) : State := { s with spoiled := s.spoiled || s.busy }

/-- The host writes OP. -/
def hostWriteOp (v : BitVec 4) (s : State) : State :=
  { s.spoilIfBusy with op := v, written := { s.written with op := true } }

/-- The host writes OPA. -/
def hostWriteOpa (v : Value) (s : State) : State :=
  { s.spoilIfBusy with opa := v, written := { s.written with opa := true } }

/-- The host writes TLEN. -/
def hostWriteTlen (n : Nat) (s : State) : State :=
  { s.spoilIfBusy with tlen := n, written := { s.written with tlen := true } }

/-- The host writes one cell of TIB. -/
def hostWriteTib (i : Nat) (c : Byte) (s : State) : State :=
  { s.spoilIfBusy with tib := Memory.write s.tib i c }

/-- The first of the cells below `n` that holds no value. -/
def firstUnwritten (m : Memory) (n : Nat) : Option Nat := (List.range n).find? (fun i => (Memory.read m i).isNone)

/-- What an encode finds unwritten: OPA (R94). -/
def missingOperand (s : State) : Option Fault := if s.written.opa then none else some (.unwrittenInput .opa)

/-- What a decode finds unwritten: TLEN, or the first cell below TLEN that holds no value, read later or not (R94). -/
def missingText (s : State) : Option Fault :=
  if s.written.tlen then (firstUnwritten s.tib s.tlen).map .unwrittenCell else some (.unwrittenInput .tlen)

/-- What an instruction's Start finds unwritten of the inputs R47 says it reads (R94, U3; log 5). -/
def missingInput (i : Instr) (s : State) : Option Fault :=
  match i with
  | .encU16 | .encU32 | .encU64 | .encIp4 | .encIp6 => missingOperand s
  | .decU16 | .decU32 | .decU64 | .decIp4 | .decIp6 => missingText s
  | .decx16 | .decx32 | .decx64 => missingText s
  | .decb16 _ | .decb32 _ | .decb64 _ => missingText s
  | .sylenc _ => none

/-- The host gives Start: accepted when BUSY = 0, OP is legal and every input of the operation has been written since
reset (R93 step 3, R94). With an input unwritten it faults, as U3 asks of a model (log 5); while BUSY = 1 and with
a reserved OP it is refused, as R95 and R50 ask (log 6, log 7). -/
def hostStart (s : State) : Host.Outcome State Fault Refusal :=
  if s.busy then .refused .startWhileBusy
  else if s.written.op then
    match decode (.cmd s.op) with
    | .ok i =>
      match missingInput i s with
      | none => .next (accept s)
      | some f => .fault f
    | .error _ => .refused (.reservedOp s.op)
  else .fault (.unwrittenInput .op)

/-- Reset of the block (R99): its registers as `State.reset` has them. What is the model's own bookkeeping of
the host's side (the moves to come, its last read, the free values drawn) is not the block's and stays (log 11). -/
def hostReset (s : State) : State :=
  { State.reset with pending := s.pending, hostData := s.hostData, free := s.free }

/-- The bits an output has (10_state.md R10). -/
def OutPort.width : OutPort → Nat
  | .status => 2
  | .res => 128
  | .olen => 6
  | .busy => 1
  | .done => 1
  | .tob _ => 8

/-- What the spec says an output reads as, zero-extended: none where the spec leaves it unspecified, that is
while DONE = 0 and, of TOB, at or above OLEN (R96, R34, U4). BUSY and DONE always read. -/
def specifiedOutput (s : State) : OutPort → Option Value
  | .status => if s.done then some (s.status.setWidth 128) else none
  | .res => if s.done then some s.res else none
  | .olen => if s.done then some (s.olen.setWidth 128) else none
  | .busy => some ((BitVec.ofBool s.busy).setWidth 128)
  | .done => some ((BitVec.ofBool s.done).setWidth 128)
  | .tob i =>
    if s.done ∧ i < s.olen.toNat then (Memory.read s.tob i).map (fun c => c.setWidth 128) else none

/-- The host reads an output: the specified value, or a free value of the output's width (U4; log 9). -/
def hostReadValue (p : OutPort) (s : State) : State :=
  match specifiedOutput s p with
  | some v => { s with hostData := v }
  | none =>
    { s with hostData := ((Config.freeValue s.free).setWidth p.width).setWidth 128, free := s.free + 1 }

/-- The host reads an output; of TOB, a cell that exists (20_memory.md R25). -/
def hostRead (p : OutPort) (s : State) : Host.Outcome State Fault Refusal :=
  match p with
  | .tob i => if i < tobSize then .next (hostReadValue p s) else .fault (.noSuchOutputCell i)
  | .status => .next (hostReadValue p s)
  | .res => .next (hostReadValue p s)
  | .olen => .next (hostReadValue p s)
  | .busy => .next (hostReadValue p s)
  | .done => .next (hostReadValue p s)

/-- Complete of an operation whose inputs the host wrote while it ran: every output and every per-operation
register is a free value, no cell of TOB holds a specified one, and the block is idle again (R94, U2; log 8). -/
def completeSpoiled (s : State) : State :=
  { s with
    status := (Config.freeValue s.free).setWidth 2
    res := Config.freeValue (s.free + 1)
    olen := (Config.freeValue (s.free + 2)).setWidth 6
    tob := []
    busy := false
    done := true
    w := (Config.freeValue (s.free + 3)).setWidth 16
    acc := (Config.freeValue (s.free + 4)).setWidth 64
    bitcnt := (Config.freeValue (s.free + 5)).setWidth 7
    cur := Config.freeIndex (s.free + 6) % (s.tlen + 1)
    seg := Vector.ofFn (fun k : Fin 8 => (Config.freeValue (s.free + 7 + k.val)).setWidth 16)
    spoiled := false
    free := s.free + 15 }

/-- What a step is to do: run an instruction on a state, or end in an outcome already known. -/
inductive Action where
  | execute (i : Instr) (s : State)
  | finish (o : Host.Outcome State Fault Refusal)

/-- The block's turn (R93 step 3): idle, nothing happens; busy, the operation OP selects runs to Complete. OP is
legal whenever Start was accepted and no input written since. -/
def blockTurn (s : State) : Action :=
  if s.busy then
    if s.spoiled then .finish (.next (completeSpoiled s))
    else
      match decode (.cmd s.op) with
      | .ok i => .execute i s
      | .error _ => .finish (.refused (.reservedOp s.op))
  else .finish (.next s)

/-- A micro-command from the mux to the decode engine (30_encoding.md R48; log 15, log 16). -/
def muxEngine (code : BitVec 3) (estart : Nat) (s : State) : Action :=
  match decode (.ecmd code estart) with
  | .ok i => .execute i s
  | .error _ => .finish (.refused (.reservedMicroCommand code estart))

/-- A value from the mux to the syllable encoder (30_encoding.md R43; log 15). -/
def muxSyllable (v : Chunk) (s : State) : Action := .execute (.sylenc v) s

/-- One move, in the state it is made in. -/
def moveAction (m : Move) (s : State) : Action :=
  match m with
  | .writeOp v => .finish (.next (hostWriteOp v s))
  | .writeOpa v => .finish (.next (hostWriteOpa v s))
  | .writeTlen n => .finish (.next (hostWriteTlen n s))
  | .writeTib i c => .finish (.next (hostWriteTib i c s))
  | .start => .finish (hostStart s)
  | .reset => .finish (.next (hostReset s))
  | .read p => .finish (hostRead p s)
  | .run => blockTurn s
  | .engine code estart => muxEngine code estart s
  | .syllable v => muxSyllable v s

/-- What the next step does: the next pending move, and with none pending the block's turn (log 2). -/
def nextAction (s : State) : Action :=
  match s.pending with
  | [] => blockTurn s
  | m :: rest => moveAction m { s with pending := rest }

/-- The state in which the very next step runs the command word: for a CMD word, OP holds it, its input
registers count as written and its Start has just been accepted; for the other two, the mux's move comes next
(log 18). -/
def present (cw : CodeWord) (s : State) : State :=
  match cw with
  | .cmd op => { accept s with op := op, written := ⟨true, true, true⟩, pending := .run :: s.pending }
  | .ecmd code estart => { s with pending := .engine code estart :: s.pending }
  | .syl v => { s with pending := .syllable v :: s.pending }

end Sys2Proof.Machine
end

