-- ==== Sys2Proof/Machine/Step.lean ====
section
/-! DEFINITION. One step of the machine: the next move of the agents (10_state.md R9), and where the next
instruction is taken from (log 18). -/

namespace Sys2Proof.Machine

/-- Run the instruction an action names, or end as it says. -/
def perform : Action → Host.Outcome State Fault Refusal
  | .execute i s => exec i s
  | .finish o => o

/-- One step: the next move; where it is the block's or the mux's, the instruction it selects runs. -/
def step (s : State) : Host.Outcome State Fault Refusal := perform (nextAction s)

/-- `s` with an instruction of the opcode table presented where the next step takes it (log 17, log 18). A word
that is in no format of the table changes nothing. -/
def State.withFetchWord (s : State) (nbits w : Nat) : State :=
  match tableWord nbits w with
  | some cw => present cw s
  | none => s

end Sys2Proof.Machine
end

