-- ==== Sys2Proof/Safety.lean ====
section
/-! DEFINITION. The terms claims are stated in: the codec on unbounded numbers and lists of characters, as the
source describes it (41_decode_engine.md R58: "exactly as the source's unbounded description"), the text and
the outputs a host sees, what an encode and a decode do to the state, and the invariant of the block. -/

namespace Sys2Proof.Machine

/-- Character `j` of the syllable of `v`: the five look-ups of 40_syllable_encoder.md R53. -/
def syllableChar (v : Chunk) : Nat → Byte
  | 0 => consChar (v.extractLsb' 12 4)
  | 1 => vowChar (v.extractLsb' 10 2)
  | 2 => consChar (v.extractLsb' 6 4)
  | 3 => vowChar (v.extractLsb' 4 2)
  | _ => consChar (v.extractLsb' 0 4)

/-- The syllable of `v` (R53). -/
def syllableText (v : Chunk) : List Byte :=
  [syllableChar v 0, syllableChar v 1, syllableChar v 2, syllableChar v 3, syllableChar v 4]

/-- Cell `i` of the proquint of an n-chunk value: syllable k in cells 6k to 6k + 4, the separator in cells
6k + 5 (30_encoding.md R44). -/
def proquintCell {len : Nat} (v : BitVec len) (n i : Nat) : Byte :=
  if i % 6 = 5 then separator else syllableChar (chunk v n (i / 6)) (i % 6)

/-- The bits a character contributes (30_encoding.md R42). -/
def CharClass.weight : CharClass → Nat
  | .cons _ => 4
  | .vow _ => 2
  | .other => 0

/-- The value a character contributes (30_encoding.md R42). -/
def CharClass.index : CharClass → Nat
  | .cons i => i.toNat
  | .vow j => j.toNat
  | .other => 0

/-- A significant character: a consonant or a vowel (00_scope.md glossary). -/
def significant (c : Byte) : Bool := classify c ≠ .other

/-- The bits of a text, 4 per consonant and 2 per vowel (41_decode_engine.md R58). -/
def textBits : List Byte → Nat
  | [] => 0
  | c :: cs => (classify c).weight + textBits cs

/-- The contributed indices of a text concatenated after `v`, most significant first, with no bound (R58). -/
def textValue (v : Nat) : List Byte → Nat
  | [] => v
  | c :: cs => textValue (v * 2 ^ (classify c).weight + (classify c).index) cs

/-- Exact-width decoding of a text, without registers (R59). -/
def exactDecode (n : Nat) (t : List Byte) : ExactResult :=
  if textBits t = n then .ok (BitVec.ofNat 64 (textValue 0 t)) n
  else if textBits t < n then .err .inputTooSmall
  else .err .inputTooLarge

/-- Bounded decoding from cell `idx` on, with `b` bits of value `v` already taken, without registers (R60). -/
def boundedDecode (n b v idx : Nat) : List Byte → BoundedResult
  | [] => .err .inputTooSmall
  | c :: cs =>
    let b' := b + (classify c).weight
    let v' := v * 2 ^ (classify c).weight + (classify c).index
    if b' = n then .ok (BitVec.ofNat 64 v') n idx
    else if n < b' then .err .inputInvalid
    else boundedDecode n b' v' (idx + 1) cs

/-- The characters a bounded decode with `b` bits already taken examines: up to the one that brings the count to N or
past it (R60). -/
def boundedTaken (n b : Nat) : List Byte → List Byte
  | [] => []
  | c :: cs => if n ≤ b + (classify c).weight then [c] else c :: boundedTaken n (b + (classify c).weight) cs

/-- The cell at which a bounded decode from cell `idx` on stops: the last one examined, or the text's end (R60). -/
def boundedStop (n b idx : Nat) : List Byte → Nat
  | [] => idx
  | c :: cs =>
    if n ≤ b + (classify c).weight then idx else boundedStop n (b + (classify c).weight) (idx + 1) cs

/-- `todo` bounded decodes of 16 bits, the first from cell `start`, each next one `skip` cells above the last
cell the one before consumed: the values in order up to the first error, and that error (44_ipv6_adapter.md R79,
R81). -/
def segmentsDecode (skip : Nat) (t : List Byte) : Nat → Nat → List (BitVec 16) × Option ErrKind
  | 0, _ => ([], none)
  | todo + 1, start =>
    match boundedDecode 16 0 0 start (t.drop start) with
    | .err e => ([], some e)
    | .ok g _ idx =>
      let rest := segmentsDecode skip t todo (idx + skip)
      (g.setWidth 16 :: rest.1, rest.2)

/-- The cells at which the bounded decodes of `segmentsDecode` ended, in order, up to the first that fails
(44_ipv6_adapter.md R81 "idx_k"). -/
def segmentEnds (skip : Nat) (t : List Byte) : Nat → Nat → List Nat
  | 0, _ => []
  | todo + 1, start =>
    match boundedDecode 16 0 0 start (t.drop start) with
    | .err _ => []
    | .ok _ _ idx => idx :: segmentEnds skip t todo (idx + skip)

/-- Segments put together, the first the most significant (30_encoding.md R46). -/
def joinValue (gs : List (BitVec 16)) : Value :=
  BitVec.ofNat 128 (gs.foldl (fun v g => v * 65536 + g.toNat) 0)

/-- Every cell of the input text holds a value (the host duty of 70_reset_and_hazards.md R94). -/
abbrev State.readable (s : State) : Prop := ∀ i < s.tlen, (Memory.read s.tib i).isSome

/-- The input text: `TIB[0..TLEN-1]` (10_state.md R16). -/
def State.text (s : State) : List Byte := (List.range s.tlen).filterMap (Memory.read s.tib)

/-- What an operation gives the host: STATUS, RES, OLEN and the TOB cells below OLEN (00_scope.md R5). -/
structure Outputs where
  status : BitVec 2
  res : Value
  olen : BitVec 6
  cells : List (Option Byte)
  deriving DecidableEq, Repr

/-- The outputs as they stand. -/
def State.outputs (s : State) : Outputs :=
  ⟨s.status, s.res, s.olen, (List.range s.olen.toNat).map (Memory.read s.tob)⟩

/-- An outcome as far as the host sees it: the outputs, or the reason of the stop. -/
def outcomeOutputs : Host.Outcome State Fault Refusal → Host.Outcome Outputs Fault Refusal
  | .next t => .next t.outputs
  | .fault f => .fault f
  | .refused r => .refused r

/-- A decode, which reads TLEN and TIB where an encode reads OPA (30_encoding.md R47 "reads"). -/
def readsText : Instr → Bool
  | .encU16 | .encU32 | .encU64 | .encIp4 | .encIp6 => false
  | .decU16 | .decU32 | .decU64 | .decIp4 | .decIp6 => true
  | .decx16 | .decx32 | .decx64 => true
  | .decb16 _ | .decb32 _ | .decb64 _ => true
  | .sylenc _ => false

/-- The host has written every input an operation reads at least once since reset: OP, and OPA for an encode, TLEN and
every cell below TLEN for a decode (the host duty of 70_reset_and_hazards.md R94). -/
def State.inputsWritten (s : State) (i : Instr) : Prop :=
  s.written.op = true ∧
  (readsText i = true → s.written.tlen = true ∧ s.readable) ∧
  (readsText i = false → s.written.opa = true)

/-- The ten host operations (30_encoding.md R47), as against the procedures of R48 and R43. -/
def isOperation : Instr → Bool
  | .encU16 | .encU32 | .encU64 | .encIp4 | .encIp6 => true
  | .decU16 | .decU32 | .decU64 | .decIp4 | .decIp6 => true
  | .decx16 | .decx32 | .decx64 => false
  | .decb16 _ | .decb32 _ | .decb64 _ => false
  | .sylenc _ => false

/-- Two states hold the same input text (10_state.md R16). -/
def sameText (s s' : State) : Prop :=
  s.tlen = s'.tlen ∧ ∀ i < s.tlen, Memory.read s.tib i = Memory.read s'.tib i

/-- Two states hold the same operand of an operation (30_encoding.md R45, R47 "reads"). -/
def sameOperand : Instr → State → State → Prop
  | .encU16, s, s' => s.opa.setWidth 16 = s'.opa.setWidth 16
  | .encU32, s, s' => s.opa.setWidth 32 = s'.opa.setWidth 32
  | .encU64, s, s' => s.opa.setWidth 64 = s'.opa.setWidth 64
  | .encIp4, s, s' => s.opa.setWidth 32 = s'.opa.setWidth 32
  | .encIp6, s, s' => s.opa = s'.opa
  | .decU16, s, s' => sameText s s'
  | .decU32, s, s' => sameText s s'
  | .decU64, s, s' => sameText s s'
  | .decIp4, s, s' => sameText s s'
  | .decIp6, s, s' => sameText s s'
  | .decx16, s, s' => sameText s s'
  | .decx32, s, s' => sameText s s'
  | .decx64, s, s' => sameText s s'
  | .decb16 _, s, s' => sameText s s'
  | .decb32 _, s, s' => sameText s s'
  | .decb64 _, s, s' => sameText s s'
  | .sylenc _, _, _ => True

/-- The effect of an encode of an n-chunk value: STATUS = OK, RES = 0, OLEN = 6n - 1, the proquint in the TOB
cells below OLEN, W = 0, BUSY = 0, DONE = 1, and nothing else changed (R66, R74, 10_state.md R17 to R21). -/
def encodeEffect {len : Nat} (v : BitVec len) (n : Nat) (s t : State) : Prop :=
  t = { s with w := 0, tob := t.tob, status := 0, res := 0, olen := BitVec.ofNat 6 (6 * n - 1),
               busy := false, done := true } ∧
  ∀ i, Memory.read t.tob i = if i < 6 * n - 1 then some (proquintCell v n i) else Memory.read s.tob i

/-- The effect of an exact-width decode to N bits: STATUS and RES as the bit total of the text says, OLEN = 0,
BUSY = 0, DONE = 1, the whole text accumulated in ACC and BITCNT, CUR = TLEN, and nothing else changed (R57, R59, R86). -/
def exactEffect (n : Nat) (s t : State) : Prop :=
  t = { s with acc := BitVec.ofNat 64 (textValue 0 s.text), bitcnt := BitVec.ofNat 7 (min (textBits s.text) 127),
               cur := s.tlen, status := t.status, res := t.res, olen := 0, busy := false, done := true } ∧
  (textBits s.text = n → t.status = 0 ∧ t.res = BitVec.ofNat 128 (textValue 0 s.text)) ∧
  (textBits s.text < n → t.status = 1 ∧ t.res = 0) ∧
  (n < textBits s.text → t.status = 2 ∧ t.res = 0)

/-- The effect of an exact-mode micro-command run alone: the result of R59 returned, the whole text accumulated in ACC
and BITCNT, CUR = TLEN, and nothing else changed. -/
def exactProcedureEffect (n : Nat) (s t : State) : Prop :=
  t = { s with acc := BitVec.ofNat 64 (textValue 0 s.text), bitcnt := BitVec.ofNat 7 (min (textBits s.text) 127),
               cur := s.tlen, ret := some (.exact (exactDecode n s.text)) }

/-- The effect of a bounded-mode micro-command run alone: the result of R60 returned, the characters examined
accumulated in ACC and BITCNT, CUR at the cell where the scan stopped, and nothing else changed. -/
def boundedProcedureEffect (n start : Nat) (s t : State) : Prop :=
  t = { s with acc := BitVec.ofNat 64 (textValue 0 (boundedTaken n 0 (s.text.drop start))),
               bitcnt := BitVec.ofNat 7 (textBits (boundedTaken n 0 (s.text.drop start))),
               cur := boundedStop n 0 (min start s.tlen) (s.text.drop start),
               ret := some (.bounded (boundedDecode n 0 0 start (s.text.drop start))) }

/-- The effect of DEC.IP6 for a resume skip of `skip`: the segments decoded before the first error, if there is one,
in SEG from SEG[0] on, the others as they were; all eight joined in RES, or the first error, as R79 says; OLEN = 0,
BUSY = 0, DONE = 1, and nothing else changed but the engine's registers. -/
def segmentsEffect (skip : Nat) (s t : State) : Prop :=
  t = { s with acc := t.acc, bitcnt := t.bitcnt, cur := t.cur, seg := t.seg, status := t.status, res := t.res,
               olen := 0, busy := false, done := true } ∧
  t.seg.toList = (segmentsDecode skip s.text 8 0).1 ++
    s.seg.toList.drop (segmentsDecode skip s.text 8 0).1.length ∧
  ((segmentsDecode skip s.text 8 0).2 = none →
    t.status = 0 ∧ t.res = joinValue (segmentsDecode skip s.text 8 0).1) ∧
  (∀ e, (segmentsDecode skip s.text 8 0).2 = some e → t.status = e.code ∧ t.res = 0)

/-- The exact-mode procedure of a width (30_encoding.md R48). -/
def exactOf : Width → Instr
  | .w16 => .decx16
  | .w32 => .decx32
  | .w64 => .decx64

/-- The bounded-mode procedure of a width (30_encoding.md R48). -/
def boundedOf : Width → Nat → Instr
  | .w16, start => .decb16 start
  | .w32, start => .decb32 start
  | .w64, start => .decb64 start

/-- The host's moves that write an input register or reset the block (10_state.md R10 "Dir"). -/
def Move.writesInputs : Move → Bool
  | .writeOp _ | .writeOpa _ | .writeTlen _ | .writeTib _ _ | .reset => true
  | .start | .read _ | .run | .engine _ _ | .syllable _ => false

/-- The moves that end the validity of the outputs: an accepted Start, and reset (70_reset_and_hazards.md R96). -/
def Move.endsOutputs : Move → Bool
  | .start | .reset => true
  | .writeOp _ | .writeOpa _ | .writeTlen _ | .writeTib _ _ => false
  | .read _ | .run | .engine _ _ | .syllable _ => false

/-- The host's copy of an encode's output to the input of a decode (70_reset_and_hazards.md R101 (f)):
`TOB[0..OLEN-1]` to `TIB[0..OLEN-1]`, and TLEN = OLEN. -/
def copyOutputToInput (s : State) : State :=
  { s with
    tlen := s.olen.toNat
    tib := (List.range s.olen.toNat).foldl
      (fun m i => match Memory.read s.tob i with | some c => Memory.write m i c | none => m) s.tib }

/-- The STATUS codes an operation can end with (60_exceptions.md R84). -/
def statusPossible : Instr → BitVec 2 → Bool
  | .encU16, st | .encU32, st | .encU64, st | .encIp4, st | .encIp6, st => st = 0
  | .decU16, st | .decU32, st | .decU64, st | .decIp4, st => st ≠ 3
  | .decIp6, st => st ≠ 2
  | _, _ => true

/-- What holds in every state of the block, before and after every step: both buffers keep their canonical form,
TOB has cells 0 to 46 only (20_memory.md R25), BUSY and DONE are never both 1 (10_state.md R20), an operation runs
only under a legal OP and on written inputs unless the host has broken its duty since its Start (R93, R94), and only a
running one can be so broken. -/
structure State.Inv (s : State) : Prop where
  tib_wf : Memory.wf s.tib
  tob_wf : Memory.wf s.tob
  tob_cells : ∀ x ∈ s.tob, x.1 < tobSize
  not_busy_and_done : ¬(s.busy = true ∧ s.done = true)
  busy_legal : s.busy = true → s.spoiled = false → typeLegal s.op = true
  busy_written : s.busy = true → s.spoiled = false → ∀ i, decode (.cmd s.op) = .ok i → s.inputsWritten i
  spoiled_busy : s.spoiled = true → s.busy = true

end Sys2Proof.Machine
end

