-- ==== Sys2Proof/Certificates/Slice0/Obligations.lean ====
section
/-! DEFINITION. The statements for the provers. The claims' terms are in Sys2Proof/Safety.lean. -/

open Sys2Proof Sys2Proof.Machine

/-! ### Command words -/

/-- 30_encoding.md R47, R48, R43: words written out from the three tables decode to their operations. -/
def Obligations.TableWordsDecode : Prop :=
  decode (.cmd 0b0000) = .ok .encU16 ∧ decode (.cmd 0b0001) = .ok .encU32 ∧
  decode (.cmd 0b0010) = .ok .encU64 ∧ decode (.cmd 0b0011) = .ok .encIp4 ∧
  decode (.cmd 0b0100) = .ok .encIp6 ∧ decode (.cmd 0b1000) = .ok .decU16 ∧
  decode (.cmd 0b1001) = .ok .decU32 ∧ decode (.cmd 0b1010) = .ok .decU64 ∧
  decode (.cmd 0b1011) = .ok .decIp4 ∧ decode (.cmd 0b1100) = .ok .decIp6 ∧
  decode (.ecmd 0b000 0) = .ok .decx16 ∧ decode (.ecmd 0b001 0) = .ok .decx32 ∧
  decode (.ecmd 0b010 0) = .ok .decx64 ∧ decode (.ecmd 0b100 5) = .ok (.decb16 5) ∧
  decode (.ecmd 0b101 5) = .ok (.decb32 5) ∧ decode (.ecmd 0b110 5) = .ok (.decb64 5) ∧
  decode (.syl 0b0111110001000000) = .ok (.sylenc 0x7C40)

/-- 30_encoding.md R47, R48, R43: a word decodes to an instruction exactly when it is that instruction's
encoding, every start index and every 16-bit value included. So decoding an encoding gives the instruction
back, and no two words decode alike. That the second half holds for DECX too is the model's: R48 gives ESTART as 0
there, and the model rejects an exact command with any other (DEDUCED, log 16). -/
def Obligations.DecodeAndEncodeAgree : Prop :=
  ∀ (w : CodeWord) (i : Instr), decode w = .ok i ↔ encode i = w

/-- 30_encoding.md R50: exactly the legal words decode, and a reserved TYPE or WSEL is rejected by its name. -/
def Obligations.ReservedWordsAreRejected : Prop :=
  (∀ w : CodeWord, (∃ i, decode w = .ok i) ↔ w.wf = true) ∧
  (∀ op : BitVec 4, 5 ≤ op.toNat % 8 → decode (.cmd op) = .error .reservedType) ∧
  (∀ (code : BitVec 3) (estart : Nat), code.toNat % 4 = 3 → decode (.ecmd code estart) = .error .reservedWidth)

/-! ### The step: Start, the block's turn, the mux -/

/-- 70_reset_and_hazards.md R93 step 3, R94: Start with BUSY = 0, a legal OP and every input of the operation written
since reset sets BUSY and clears DONE, and changes nothing else (`spoiled` is the model's own mark of a broken host
duty, log 8, and `written` its mark of the inputs written, log 5). -/
def Obligations.StartIsAcceptedWhenIdle : Prop :=
  ∀ (s : State) (rest : List Move) (i : Instr), s.pending = .start :: rest → s.busy = false →
    decode (.cmd s.op) = .ok i → s.inputsWritten i →
    step s = .next { s with pending := rest, busy := true, done := false, spoiled := false }

/-- 70_reset_and_hazards.md R95, 30_encoding.md R50: "a model should refuse both" a Start while BUSY = 1 and a Start
with a reserved OP. The refusals' names are the model's (log 6, log 7); a Start with OP never written is
StartOnUnwrittenInputsFaults's. -/
def Obligations.StartAtTheWrongTimeIsRefused : Prop :=
  ∀ (s : State) (rest : List Move), s.pending = .start :: rest →
    (s.busy = true → step s = .refused .startWhileBusy) ∧
    (s.busy = false → s.written.op = true → 5 ≤ s.op.toNat % 8 → step s = .refused (.reservedOp s.op))

/-- 70_reset_and_hazards.md R93 step 3, 30_encoding.md R47: with an operation accepted and its inputs left alone,
the block's turn is `exec` of the operation OP selects, whether the turn is a pending move or nothing is pending
(log 2). -/
def Obligations.StepRunsTheSelectedOperation : Prop :=
  ∀ (s : State) (i : Instr), s.busy = true → s.spoiled = false → decode (.cmd s.op) = .ok i →
    (s.pending = [] → step s = exec i s) ∧
    (∀ rest, s.pending = .run :: rest → step s = exec i { s with pending := rest })

/-- 30_encoding.md R48, R43: a step that hands the engine a legal micro-command, or the syllable encoder a value, is
`exec` of it (steps of procedures alone are the model's, log 15). -/
def Obligations.StepRunsTheProcedures : Prop :=
  ∀ (s : State) (rest : List Move),
    (∀ code estart i, s.pending = .engine code estart :: rest → decode (.ecmd code estart) = .ok i →
      step s = exec i { s with pending := rest }) ∧
    (∀ v, s.pending = .syllable v :: rest → step s = exec (.sylenc v) { s with pending := rest })

/-- 10_state.md R9, R12: the block starts nothing by itself: idle and with no move pending, a step changes nothing
(log 2). -/
def Obligations.IdleBlockWaits : Prop :=
  ∀ s : State, s.busy = false → s.pending = [] → step s = .next s

/-! ### The host -/

/-- 70_reset_and_hazards.md R93 step 1, 10_state.md R10: a host write while BUSY = 0 writes its register or cell and
changes nothing else (`written` is the model's own mark of the inputs written since reset, log 5). -/
def Obligations.HostWritesAnInput : Prop :=
  ∀ (s : State) (rest : List Move), s.busy = false →
    (∀ v, s.pending = .writeOp v :: rest →
      step s = .next { s with pending := rest, op := v, written := { s.written with op := true } }) ∧
    (∀ v, s.pending = .writeOpa v :: rest →
      step s = .next { s with pending := rest, opa := v, written := { s.written with opa := true } }) ∧
    (∀ n, s.pending = .writeTlen n :: rest →
      step s = .next { s with pending := rest, tlen := n, written := { s.written with tlen := true } }) ∧
    (∀ i c, s.pending = .writeTib i c :: rest →
      ∃ tib, step s = .next { s with pending := rest, tib := tib } ∧
        ∀ k, Memory.read tib k = if k = i then some c else Memory.read s.tib k)

/-- 70_reset_and_hazards.md R94: a host write of an input while BUSY = 1 breaks the running operation and nothing else.
The write marks it `spoiled` and leaves every field but the input written as it was (that the write lands, and the
marks, are the model's: log 8, log 5). In its turn the operation still Completes, whether the turn is a pending move
or nothing is pending, and the block itself is unharmed: BUSY = 0, DONE = 1, the mark cleared, OP, OPA, TLEN and TIB as
the host left them, and nothing else changed but the operation's own results and registers, which are free values (U2,
log 8), and their count: nothing is said of them. -/
def Obligations.WritesWhileBusySpoilOnlyTheOperation : Prop :=
  (∀ (s : State) (rest : List Move), s.busy = true →
    (∀ v, s.pending = .writeOp v :: rest →
      step s =
        .next { s with pending := rest, op := v, written := { s.written with op := true }, spoiled := true }) ∧
    (∀ v, s.pending = .writeOpa v :: rest →
      step s =
        .next { s with pending := rest, opa := v, written := { s.written with opa := true }, spoiled := true }) ∧
    (∀ n, s.pending = .writeTlen n :: rest →
      step s =
        .next { s with pending := rest, tlen := n, written := { s.written with tlen := true }, spoiled := true }) ∧
    (∀ i c, s.pending = .writeTib i c :: rest →
      ∃ tib, step s = .next { s with pending := rest, tib := tib, spoiled := true } ∧
        ∀ k, Memory.read tib k = if k = i then some c else Memory.read s.tib k)) ∧
  (∀ (s : State) (rest : List Move), s.busy = true → s.spoiled = true →
    (s.pending = [] ∧ rest = [] ∨ s.pending = .run :: rest) →
    ∃ t, step s = .next t ∧
      t = { s with pending := rest, status := t.status, res := t.res, olen := t.olen, tob := t.tob, w := t.w,
                   acc := t.acc, bitcnt := t.bitcnt, cur := t.cur, seg := t.seg, free := t.free,
                   busy := false, done := true, spoiled := false })

/-- 70_reset_and_hazards.md R93 step 4, R96, 20_memory.md R34: while DONE = 1 the host reads STATUS, RES, OLEN and the
TOB cells below OLEN as they stand, and BUSY and DONE at any time; the read changes nothing else. -/
def Obligations.HostReadsTheOutputs : Prop :=
  ∀ (s : State) (rest : List Move),
    (s.done = true →
      (s.pending = .read .status :: rest →
        step s = .next { s with pending := rest, hostData := s.status.setWidth 128 }) ∧
      (s.pending = .read .res :: rest → step s = .next { s with pending := rest, hostData := s.res }) ∧
      (s.pending = .read .olen :: rest →
        step s = .next { s with pending := rest, hostData := s.olen.setWidth 128 }) ∧
      (∀ i c, s.pending = .read (.tob i) :: rest → i < s.olen.toNat → i < 47 → Memory.read s.tob i = some c →
        step s = .next { s with pending := rest, hostData := c.setWidth 128 })) ∧
    (s.pending = .read .busy :: rest →
      step s = .next { s with pending := rest, hostData := (BitVec.ofBool s.busy).setWidth 128 }) ∧
    (s.pending = .read .done :: rest →
      step s = .next { s with pending := rest, hostData := (BitVec.ofBool s.done).setWidth 128 })

/-- 70_reset_and_hazards.md R96, 20_memory.md R34, U4: a read of STATUS, RES or OLEN while DONE = 0, and of a TOB cell
while DONE = 0, at or above OLEN, or one that holds no value, completes and leaves the block as it was; what it delivers
is a free value (log 9): nothing is said of it. A TOB cell at or above 47 does not exist (20_memory.md R25): reading it
is a fault (log 23). -/
def Obligations.UnspecifiedReadsChangeNoRegister : Prop :=
  ∀ (s : State) (p : OutPort) (rest : List Move), s.pending = .read p :: rest →
    (s.done = false → (p = .status ∨ p = .res ∨ p = .olen) →
      ∃ v, step s = .next { s with pending := rest, hostData := v, free := s.free + 1 }) ∧
    (∀ i, p = .tob i → i < 47 → (s.done = false ∨ s.olen.toNat ≤ i ∨ Memory.read s.tob i = none) →
      ∃ v, step s = .next { s with pending := rest, hostData := v, free := s.free + 1 }) ∧
    (∀ i, p = .tob i → 47 ≤ i → step s = .fault (.noSuchOutputCell i))

/-- 10_state.md R24, 70_reset_and_hazards.md R99: after the block's reset BUSY = 0 and DONE = 0, no text cell holds a
value and no input register counts as written ("Unspecified" is "holds no value"; the marks are the model's, log 5).
The values the model gives the other registers (log 3) are not part of the claim. -/
def Obligations.ResetLeavesTheBlockIdle : Prop :=
  State.reset.busy = false ∧ State.reset.done = false ∧ State.reset.written = ⟨false, false, false⟩ ∧
  ∀ i, Memory.read State.reset.tib i = none ∧ Memory.read State.reset.tob i = none

/-- 70_reset_and_hazards.md R99: a reset, also one given while an operation is running, leaves the block idle without a
Complete, and every register of it as it is after the block's reset; the model's own `pending`, `hostData` and `free`
are the host's side and stay (log 11). -/
def Obligations.ResetAbandonsTheOperation : Prop :=
  ∀ (s : State) (rest : List Move), s.pending = .reset :: rest →
    step s = .next { State.reset with pending := rest, hostData := s.hostData, free := s.free } ∧
    ∃ t, step s = .next t ∧ t.busy = false ∧ t.done = false

/-! ### The whole machine -/

/-- The invariant of the block holds right after reset. -/
def Obligations.ResetMeetsTheInvariant : Prop := State.reset.Inv

/-- Every step keeps the invariant: both buffers canonical, TOB inside its 47 cells (20_memory.md R25), BUSY and DONE
never both 1 (10_state.md R20), a running operation under a legal OP and on written inputs
(70_reset_and_hazards.md R93, R94) unless the host has spoiled it (log 8). -/
def Obligations.EveryStepKeepsTheInvariant : Prop :=
  ∀ s t : State, s.Inv → step s = .next t → t.Inv

/-- 70_reset_and_hazards.md R98 (which the spec marks as derived): every accepted operation reaches Complete, in the
block's next turn. The invariant says that its Start found its inputs written. -/
def Obligations.EveryAcceptedOperationCompletes : Prop :=
  ∀ s : State, s.Inv → s.busy = true → (s.pending = [] ∨ ∃ rest, s.pending = .run :: rest) →
    ∃ t, step s = .next t ∧ t.busy = false ∧ t.done = true

/-- 93_implementation_defined.md U3, 60_exceptions.md R83: no instruction is ever refused, and the one thing that stops
an instruction is a text cell below TLEN that holds no value. -/
def Obligations.OnlyAnUnwrittenCellStopsAnInstruction : Prop :=
  ∀ (i : Instr) (s : State),
    (∀ r, exec i s ≠ .refused r) ∧
    (∀ f, exec i s = .fault f → ∃ k < s.tlen, Memory.read s.tib k = none ∧ f = .unwrittenCell k)

/-- 10_state.md R10 (column Dir), R14 to R16: OP, OPA, TLEN and TIB are written by the host alone: in any step but one
that makes a host write or a reset, they stay as they are, and so do the model's marks of which have been written
(log 5). -/
def Obligations.OnlyTheHostWritesTheInputs : Prop :=
  ∀ s t : State, step s = .next t → (∀ m rest, s.pending = m :: rest → m.writesInputs = false) →
    t.op = s.op ∧ t.opa = s.opa ∧ t.tlen = s.tlen ∧ t.tib = s.tib ∧ t.written = s.written

/-- 70_reset_and_hazards.md R96: "They keep their values from Complete until the next accepted Start": while BUSY = 0,
no step but a Start or a reset changes STATUS, RES, OLEN, any cell of TOB, BUSY or DONE. -/
def Obligations.OutputsHoldUntilTheNextStart : Prop :=
  ∀ s t : State, s.busy = false → step s = .next t → (∀ m rest, s.pending = m :: rest → m.endsOutputs = false) →
    t.status = s.status ∧ t.res = s.res ∧ t.olen = s.olen ∧ (∀ i, Memory.read t.tob i = Memory.read s.tob i) ∧
    t.busy = s.busy ∧ t.done = s.done

/-- 00_scope.md R5: an operation is total where its text is written, and what it gives the host (STATUS, RES, OLEN and the TOB cells below OLEN), or the reason it
stops, is a function of the operation and its operand alone: of the OPA bits of the type's width for an encode, of TLEN
and the TIB cells below TLEN for a decode. -/
def Obligations.OperationsArePureFunctions : Prop :=
  (∀ (i : Instr) (s : State), isOperation i = true → s.readable → ∃ t, exec i s = .next t) ∧
  (∀ (i : Instr) (s s' : State), isOperation i = true → sameOperand i s s' →
    outcomeOutputs (exec i s) = outcomeOutputs (exec i s'))

/-- 60_exceptions.md R84: the table of the STATUS codes each operation can end with: an operation ends with no other
code, and with each of its codes it can end. -/
def Obligations.StatusCodesAreThoseOfTheTable : Prop :=
  ∀ (i : Instr) (st : BitVec 2), isOperation i = true →
    (statusPossible i st = true ↔ ∃ s t, exec i s = .next t ∧ t.status = st)

/-- 60_exceptions.md R86: an operation that ends in an error leaves RES = 0, OLEN = 0, BUSY = 0 and DONE = 1. -/
def Obligations.ErrorsExposeNoPartialValue : Prop :=
  ∀ (i : Instr) (s t : State), isOperation i = true → exec i s = .next t → t.status ≠ 0 →
    t.res = 0 ∧ t.olen = 0 ∧ t.busy = false ∧ t.done = true

/-- 10_state.md R18, 30_encoding.md R46: RES holds nothing above the type's width after a decode, and 0 after an
encode. -/
def Obligations.ResultsFitTheirType : Prop :=
  ∀ s t : State,
    (exec .decU16 s = .next t → t.res.toNat < 2 ^ 16) ∧
    (exec .decU32 s = .next t → t.res.toNat < 2 ^ 32) ∧
    (exec .decU64 s = .next t → t.res.toNat < 2 ^ 64) ∧
    (exec .decIp4 s = .next t → t.res.toNat < 2 ^ 32) ∧
    (∀ i ∈ [Instr.encU16, .encU32, .encU64, .encIp4, .encIp6], exec i s = .next t → t.res = 0)

/-- 10_state.md R12: CUR never exceeds TLEN: wherever a decode or a decode procedure ends, the cursor stands inside the
text or just past its end. -/
def Obligations.CursorStaysInTheText : Prop :=
  ∀ (s t : State) (start : Nat) (i : Instr),
    i ∈ [Instr.decU16, .decU32, .decU64, .decIp4, .decIp6, .decx16, .decx32, .decx64,
      .decb16 start, .decb32 start, .decb64 start] →
    exec i s = .next t → t.cur ≤ s.tlen

/-! ### Text buffers and alphabets -/

/-- 20_memory.md R27, R28: TextRead of a cell below TLEN gives the character it holds; TextWrite of a cell below 47 makes
that cell, and no other, hold the character. -/
def Obligations.TextAccessesReadAndWriteOneCell : Prop :=
  (∀ (s : State) (i : Nat) (c : Byte), i < s.tlen → Memory.read s.tib i = some c → textRead s i = .ok c) ∧
  (∀ (m : Memory) (i : Nat) (c : Byte), i < 47 →
    ∃ m', textWrite m i c = .ok m' ∧ ∀ k, Memory.read m' k = if k = i then some c else Memory.read m k)

/-- 30_encoding.md R40, R41: the two alphabets in index order, as character codes. Every code is R39's ASCII code
"from general knowledge" (PRESUMED, log 22). -/
def Obligations.AlphabetsInIndexOrder : Prop :=
  (List.range 16).map (fun i => consChar (BitVec.ofNat 4 i)) =
    [0x62, 0x64, 0x66, 0x67, 0x68, 0x6A, 0x6B, 0x6C, 0x6D, 0x6E, 0x70, 0x72, 0x73, 0x74, 0x76, 0x7A] ∧
  (List.range 4).map (fun j => vowChar (BitVec.ofNat 2 j)) = [0x61, 0x69, 0x6F, 0x75]

/-- 41_decode_engine.md R56: CLASSIFY inverts the two alphabets, and every code in neither is Other; R56's seven
examples, five of which write a character as R39's ASCII code "from general knowledge" (PRESUMED, log 22). -/
def Obligations.ClassifyInvertsTheAlphabets : Prop :=
  (∀ (c : Byte) (i : BitVec 4), classify c = .cons i ↔ consChar i = c) ∧
  (∀ (c : Byte) (j : BitVec 2), classify c = .vow j ↔ vowChar j = c) ∧
  (∀ c : Byte, classify c = .other ↔ (∀ i, consChar i ≠ c) ∧ (∀ j, vowChar j ≠ c)) ∧
  classify 0x6C = .cons 7 ∧ classify 0x75 = .vow 3 ∧ classify 0x2D = .other ∧ classify 0x4C = .other ∧
  classify 0x65 = .other ∧ classify 0x00 = .other ∧ classify 0xC3 = .other

/-! ### The syllable encoder -/

/-- 40_syllable_encoder.md R53, R54: SYLENC completes in every state with the five look-ups of R53 as its result and
W = 0. That a step runs SYLENC alone and then changes nothing else is the model's (DESIGN CHOICE, log 15; ACC,
BITCNT, CUR and SEG kept: DEDUCED, log 19). -/
def Obligations.SyllableEncoderResult : Prop :=
  ∀ (v : Chunk) (s : State), exec (.sylenc v) s = .next
    { s with
      w := 0
      ret := some (.syllable
        [consChar (v.extractLsb' 12 4), vowChar (v.extractLsb' 10 2), consChar (v.extractLsb' 6 4),
         vowChar (v.extractLsb' 4 2), consChar (v.extractLsb' 0 4)]) }

/-- 40_syllable_encoder.md R55 (its (d), and the bijection of R43, are marked as derived): (a) five characters, (b) of the shape C V C V C, (c) a bijection onto the strings of that
shape, (d) DECX(16) on them gives the value back, (e) no other character among them. -/
def Obligations.SyllablesAreABijection : Prop :=
  (∀ v : Chunk, (sylencode v).1.length = 5 ∧ (∀ c ∈ (sylencode v).1, classify c ≠ .other) ∧
    ∃ a b c d e, (sylencode v).1 = [consChar a, vowChar b, consChar c, vowChar d, consChar e]) ∧
  (∀ a b c d e, ∃! v : Chunk, (sylencode v).1 = [consChar a, vowChar b, consChar c, vowChar d, consChar e]) ∧
  (∀ (v : Chunk) (s : State), s.tlen = 5 → (∀ j < 5, Memory.read s.tib j = (sylencode v).1[j]?) →
    ∃ t, exec .decx16 s = .next t ∧ t.ret = some (.exact (.ok (v.setWidth 64) 16)))

/-! ### The decode engine -/

/-- 41_decode_engine.md R57: ACCUM. -/
def Obligations.AccumulateStep : Prop :=
  ∀ (c : Byte) (e : Engine),
    (∀ i, classify c = .cons i → accum c e =
      { e with acc := BitVec.ofNat 64 (e.acc.toNat * 16 + i.toNat),
               bitcnt := BitVec.ofNat 7 (min (e.bitcnt.toNat + 4) 127) }) ∧
    (∀ j, classify c = .vow j → accum c e =
      { e with acc := BitVec.ofNat 64 (e.acc.toNat * 4 + j.toNat),
               bitcnt := BitVec.ofNat 7 (min (e.bitcnt.toNat + 2) 127) }) ∧
    (classify c = .other → accum c e = e)

/-- 41_decode_engine.md R58 (which the spec marks as derived from R57) on the text of an exact-width procedure: B is even; up to 64 bits BITCNT = B and ACC is the
concatenation of the indices, below 2^B; above, BITCNT = min(B, 127). -/
def Obligations.EngineHoldsExactlyTheBits : Prop :=
  ∀ (n : Width) (s : State), s.readable → ∃ t, exec (exactOf n) s = .next t ∧
    textBits s.text % 2 = 0 ∧
    (textBits s.text ≤ 64 → t.bitcnt.toNat = textBits s.text ∧ t.acc.toNat = textValue 0 s.text ∧
      t.acc.toNat < 2 ^ textBits s.text) ∧
    (64 < textBits s.text → t.bitcnt.toNat = min (textBits s.text) 127)

/-- 41_decode_engine.md R59: DECX(N) on a text every cell of which is written completes with the result of R59 on the
whole text, the text accumulated in ACC and BITCNT, CUR = TLEN. That a step runs DECX alone and then changes nothing
else is the model's (DESIGN CHOICE, log 15; W and SEG kept: DEDUCED, log 19). -/
def Obligations.ExactProcedureResult : Prop :=
  ∀ s : State, s.readable →
    (∃ t, exec .decx16 s = .next t ∧ exactProcedureEffect 16 s t) ∧
    (∃ t, exec .decx32 s = .next t ∧ exactProcedureEffect 32 s t) ∧
    (∃ t, exec .decx64 s = .next t ∧ exactProcedureEffect 64 s t)

/-- 41_decode_engine.md R60: DECB(N, start) completes with the result of R60 from cell `start` on, for every start index,
the characters examined accumulated in ACC and BITCNT, CUR where the scan stopped. That a step runs DECB alone and then
changes nothing else is the model's (DESIGN CHOICE, log 15; W and SEG kept: DEDUCED, log 19). -/
def Obligations.BoundedProcedureResult : Prop :=
  ∀ (s : State) (start : Nat), s.readable →
    (∃ t, exec (.decb16 start) s = .next t ∧ boundedProcedureEffect 16 start s t) ∧
    (∃ t, exec (.decb32 start) s = .next t ∧ boundedProcedureEffect 32 start s t) ∧
    (∃ t, exec (.decb64 start) s = .next t ∧ boundedProcedureEffect 64 start s t)

/-- 41_decode_engine.md R61 (marked as derived from R59 and R60): the four relations between `DECB(N, 0)` and `DECX(N)` on one text. -/
def Obligations.TheTwoModesRelate : Prop :=
  ∀ (n : Width) (s t u : State), s.readable → exec (exactOf n) s = .next t → exec (boundedOf n 0) s = .next u →
    (∀ v idx, u.ret = some (.bounded (.ok v n.bits idx)) →
      (∀ k c, idx < k → s.text[k]? = some c → significant c = false) →
      t.ret = some (.exact (.ok v n.bits))) ∧
    (∀ v idx, u.ret = some (.bounded (.ok v n.bits idx)) →
      (∃ k c, idx < k ∧ s.text[k]? = some c ∧ significant c = true) →
      t.ret = some (.exact (.err .inputTooLarge))) ∧
    (u.ret = some (.bounded (.err .inputInvalid)) → t.ret = some (.exact (.err .inputTooLarge))) ∧
    (u.ret = some (.bounded (.err .inputTooSmall)) ↔ t.ret = some (.exact (.err .inputTooSmall)))

/-- 41_decode_engine.md R63: two texts with the same significant characters in the same order, whatever other characters
stand between them, give the same DECX result, and from start cells with the same significant characters ahead the
same DECB value or error; only idx can move. -/
def Obligations.OtherCharactersDoNotMatter : Prop :=
  ∀ (n : Width) (s s' : State), s.readable → s'.readable →
    (s.text.filter significant = s'.text.filter significant →
      ∃ t t' r, exec (exactOf n) s = .next t ∧ exec (exactOf n) s' = .next t' ∧
        t.ret = some (.exact r) ∧ t'.ret = some (.exact r)) ∧
    (∀ start start',
      (s.text.drop start).filter significant = (s'.text.drop start').filter significant →
      ∃ t t', exec (boundedOf n start) s = .next t ∧ exec (boundedOf n start') s' = .next t' ∧
        ((∃ e, t.ret = some (.bounded (.err e)) ∧ t'.ret = some (.bounded (.err e))) ∨
         (∃ v idx idx', t.ret = some (.bounded (.ok v n.bits idx)) ∧ t'.ret = some (.bounded (.ok v n.bits idx')))))

/-! ### The encode operations -/

/-- 42_integer_adapters.md R67: ENC.U16 completes in every state: the syllable of OPA[15:0] in TOB[0..4], OLEN = 5, RES =
0, STATUS = OK; every other cell as it was. W = 0 after the operation, and ACC, BITCNT, CUR and SEG as they were, are
the model's (DEDUCED, log 19; U9 allows any value). -/
def Obligations.EncodeU16Result : Prop :=
  decode (.cmd 0x0) = .ok .encU16 ∧
  ∀ s : State, ∃ t, exec .encU16 s = .next t ∧ encodeEffect (s.opa.extractLsb' 0 16) 1 s t

/-- 42_integer_adapters.md R68: ENC.U32, the same for OPA[31:0] as two syllables, the high half first, OLEN = 11. W, ACC,
BITCNT, CUR and SEG after it are the model's (DEDUCED, log 19; U9 allows any value). -/
def Obligations.EncodeU32Result : Prop :=
  decode (.cmd 0x1) = .ok .encU32 ∧
  ∀ s : State, ∃ t, exec .encU32 s = .next t ∧ encodeEffect (s.opa.extractLsb' 0 32) 2 s t

/-- 42_integer_adapters.md R69: ENC.U64, the same for OPA[63:0] as four syllables, OLEN = 23. W, ACC,
BITCNT, CUR and SEG after it are the model's (DEDUCED, log 19; U9 allows any value). -/
def Obligations.EncodeU64Result : Prop :=
  decode (.cmd 0x2) = .ok .encU64 ∧
  ∀ s : State, ∃ t, exec .encU64 s = .next t ∧ encodeEffect (s.opa.extractLsb' 0 64) 4 s t

/-- 43_ipv4_adapter.md R75: ENC.IP4, the same for the four octets packed big-endian, OLEN = 11. W, ACC,
BITCNT, CUR and SEG after it are the model's (DEDUCED, log 19; U9 allows any value). -/
def Obligations.EncodeIp4Result : Prop :=
  decode (.cmd 0x3) = .ok .encIp4 ∧
  ∀ s : State, ∃ t, exec .encIp4 s = .next t ∧
    encodeEffect (s.opa.extractLsb' 24 8 ++ s.opa.extractLsb' 16 8 ++ s.opa.extractLsb' 8 8 ++
      s.opa.extractLsb' 0 8) 2 s t

/-- 44_ipv6_adapter.md R78: ENC.IP6, the same for the eight segments of OPA[127:0], OLEN = 47. W, ACC,
BITCNT, CUR and SEG after it are the model's (DEDUCED, log 19; U9 allows any value). -/
def Obligations.EncodeIp6Result : Prop :=
  decode (.cmd 0x4) = .ok .encIp6 ∧
  ∀ s : State, ∃ t, exec .encIp6 s = .next t ∧ encodeEffect s.opa 8 s t

/-- 42_integer_adapters.md R74: the lengths 5, 11, 11, 23 and 47, for every operand. -/
def Obligations.EncodeLengths : Prop :=
  ∀ s : State,
    (∃ t, exec .encU16 s = .next t ∧ t.olen = 5) ∧ (∃ t, exec .encU32 s = .next t ∧ t.olen = 11) ∧
    (∃ t, exec .encIp4 s = .next t ∧ t.olen = 11) ∧ (∃ t, exec .encU64 s = .next t ∧ t.olen = 23) ∧
    (∃ t, exec .encIp6 s = .next t ∧ t.olen = 47)

/-! ### The decode operations -/

/-- 42_integer_adapters.md R70: DEC.U16 on a text every cell of which is written completes with the value or the error of
DECX(16), OLEN = 0. ACC, BITCNT and CUR as DECX leaves them after the operation, and W and SEG as they were, are the
model's (DEDUCED, log 19; U9 allows any value). -/
def Obligations.DecodeU16Result : Prop :=
  decode (.cmd 0x8) = .ok .decU16 ∧
  ∀ s : State, s.readable → ∃ t, exec .decU16 s = .next t ∧ exactEffect 16 s t

/-- 42_integer_adapters.md R71: DEC.U32, the same with DECX(32). ACC, BITCNT, CUR, W and SEG after it are the model's
(DEDUCED, log 19; U9 allows any value). -/
def Obligations.DecodeU32Result : Prop :=
  decode (.cmd 0x9) = .ok .decU32 ∧
  ∀ s : State, s.readable → ∃ t, exec .decU32 s = .next t ∧ exactEffect 32 s t

/-- 42_integer_adapters.md R72: DEC.U64, the same with DECX(64). ACC, BITCNT, CUR, W and SEG after it are the model's
(DEDUCED, log 19; U9 allows any value). -/
def Obligations.DecodeU64Result : Prop :=
  decode (.cmd 0xA) = .ok .decU64 ∧
  ∀ s : State, s.readable → ∃ t, exec .decU64 s = .next t ∧ exactEffect 64 s t

/-- 43_ipv4_adapter.md R76: DEC.IP4, the same with DECX(32). ACC, BITCNT, CUR, W and SEG after it are the model's
(DEDUCED, log 19; U9 allows any value). -/
def Obligations.DecodeIp4Result : Prop :=
  decode (.cmd 0xB) = .ok .decIp4 ∧
  ∀ s : State, s.readable → ∃ t, exec .decIp4 s = .next t ∧ exactEffect 32 s t

/-- 43_ipv4_adapter.md R75 "ENC.IP4 writes exactly what ENC.U32 writes", R76 "DEC.IP4 writes exactly what DEC.U32
writes", both marked as the spec's own inference: on every state, written text or not, the two pairs of operations do
the same. -/
def Obligations.Ipv4OperationsAreThoseOf32Bits : Prop :=
  ∀ s : State, exec .encIp4 s = exec .encU32 s ∧ exec .decIp4 s = exec .decU32 s

/-- 44_ipv6_adapter.md R79: DEC.IP6 on a text every cell of which is written completes with the eight segments of the
chained bounded decodes joined, each resuming one cell after the last one consumed, or the first error; OLEN = 0; and
nothing else changes but the engine's registers and SEG. Resuming at idx + 1 is the spec's decision D10 between two
readings of its source (DEDUCED, log 14: unsafe on the texts of U6); what SEG and W hold after the operation is the
model's (DEDUCED, log 19; U9 allows any value). -/
def Obligations.DecodeIp6Result : Prop :=
  decode (.cmd 0xC) = .ok .decIp6 ∧
  ∀ s : State, s.readable → ∃ t, exec .decIp6 s = .next t ∧ segmentsEffect 1 s t

/-- 44_ipv6_adapter.md R80, 60_exceptions.md R86 "no further cell is read": DEC.IP6 does not look at the text after the
eighth segment, nor after a segment that is InputInvalid: a longer text, written or not beyond the first text's end,
gives the same STATUS and RES. -/
def Obligations.DecodeIp6IgnoresTrailingText : Prop :=
  ∀ s s' t : State, s.tlen ≤ s'.tlen → (∀ i < s.tlen, Memory.read s'.tib i = Memory.read s.tib i) →
    exec .decIp6 s = .next t → t.status ≠ 1 →
    ∃ t', exec .decIp6 s' = .next t' ∧ t'.status = t.status ∧ t'.res = t.res

/-- 44_ipv6_adapter.md R81 (marked as derived from R79): if after each of the first seven segments the next cell does not exist or holds an other
character, the resume skips 1 and 2 give the same STATUS and RES. -/
def Obligations.ResumeSkipDoesNotMatterAfterASeparator : Prop :=
  ∀ s : State, s.readable →
    (∀ idx ∈ segmentEnds 1 s.text 7 0, ∀ c, s.text[idx + 1]? = some c → significant c = false) →
    ∃ t t', exec .decIp6 s = .next t ∧ runDecodeIp6 2 s = .next t' ∧ t'.status = t.status ∧ t'.res = t.res

/-! ### Round trips -/

/-- 42_integer_adapters.md R73: for every 16-, 32- and 64-bit value, the encode's output copied to the input decodes to
the value; and the converse does not hold: two texts can decode to one value. -/
def Obligations.IntegersRoundTrip : Prop :=
  (∀ s : State,
    (∃ t u, exec .encU16 s = .next t ∧ exec .decU16 (copyOutputToInput t) = .next u ∧
      u.status = 0 ∧ u.res = (s.opa.extractLsb' 0 16).setWidth 128) ∧
    (∃ t u, exec .encU32 s = .next t ∧ exec .decU32 (copyOutputToInput t) = .next u ∧
      u.status = 0 ∧ u.res = (s.opa.extractLsb' 0 32).setWidth 128) ∧
    (∃ t u, exec .encU64 s = .next t ∧ exec .decU64 (copyOutputToInput t) = .next u ∧
      u.status = 0 ∧ u.res = (s.opa.extractLsb' 0 64).setWidth 128)) ∧
  ∃ s s' t t', s.text ≠ s'.text ∧ exec .decU16 s = .next t ∧ exec .decU16 s' = .next t' ∧
    t.status = 0 ∧ t'.status = 0 ∧ t.res = t'.res

/-- 43_ipv4_adapter.md R77: every IPv4 address comes back from its own encoding, octet by octet; and the source's two
fixed vectors, 127.0.0.1 with `lusab-babad` and 63.84.220.193 with `gutih-tugad`, in both directions, their characters
written as R39's ASCII codes "from general knowledge" (PRESUMED, log 22). -/
def Obligations.Ipv4AddressesRoundTrip : Prop :=
  (∀ s : State, ∃ t u, exec .encIp4 s = .next t ∧ exec .decIp4 (copyOutputToInput t) = .next u ∧
    u.status = 0 ∧ u.res = (s.opa.extractLsb' 0 32).setWidth 128 ∧
    ∀ k < 4, resultOctet u k = operandOctet s k) ∧
  (∀ s : State, (s.opa.extractLsb' 0 32 = 0x7F000001 → ∃ t, exec .encIp4 s = .next t ∧
      (copyOutputToInput t).text = [0x6C, 0x75, 0x73, 0x61, 0x62, 0x2D, 0x62, 0x61, 0x62, 0x61, 0x64]) ∧
    (s.opa.extractLsb' 0 32 = 0x3F54DCC1 → ∃ t, exec .encIp4 s = .next t ∧
      (copyOutputToInput t).text = [0x67, 0x75, 0x74, 0x69, 0x68, 0x2D, 0x74, 0x75, 0x67, 0x61, 0x64])) ∧
  (∀ s : State, s.readable →
    (s.text = [0x6C, 0x75, 0x73, 0x61, 0x62, 0x2D, 0x62, 0x61, 0x62, 0x61, 0x64] →
      ∃ t, exec .decIp4 s = .next t ∧ t.status = 0 ∧ t.res = 0x7F000001) ∧
    (s.text = [0x67, 0x75, 0x74, 0x69, 0x68, 0x2D, 0x74, 0x75, 0x67, 0x61, 0x64] →
      ∃ t, exec .decIp4 s = .next t ∧ t.status = 0 ∧ t.res = 0x3F54DCC1))

/-- 44_ipv6_adapter.md R82 (its account of the eight calls is marked as derived from R78 and R79): every IPv6 address comes back from its own encoding: OLEN = 47, the eight bounded decodes end
at cells 4, 10, 16, 22, 28, 34, 40 and 46, SEG[k] = gk, STATUS = OK, RES = the operand. -/
def Obligations.Ipv6AddressesRoundTrip : Prop :=
  ∀ s : State, ∃ t u, exec .encIp6 s = .next t ∧ t.olen = 47 ∧ exec .decIp6 (copyOutputToInput t) = .next u ∧
    segmentEnds 1 (copyOutputToInput t).text 8 0 = [4, 10, 16, 22, 28, 34, 40, 46] ∧
    (∀ (k : Nat) (h : k < 8), u.seg[k] = operandSegment s k) ∧
    u.status = 0 ∧ u.res = s.opa ∧ ∀ k < 8, resultSegment u k = operandSegment s k

/-! ### Inputs never written -/

/-- 70_reset_and_hazards.md R94, 93_implementation_defined.md U3 "fault (read of a register that holds no value)": a
Start with BUSY = 0 of an operation one of whose inputs the host has not written since reset stops, naming the input:
OP; OPA for an encode; TLEN, or the first cell below TLEN, for a decode, read later or not. The faults' names and the
order of the checks are the model's (log 5). -/
def Obligations.StartOnUnwrittenInputsFaults : Prop :=
  ∀ (s : State) (rest : List Move), s.pending = .start :: rest → s.busy = false →
    (s.written.op = false → step s = .fault (.unwrittenInput .op)) ∧
    (∀ i, s.written.op = true → decode (.cmd s.op) = .ok i →
      (readsText i = false → s.written.opa = false → step s = .fault (.unwrittenInput .opa)) ∧
      (readsText i = true → s.written.tlen = false → step s = .fault (.unwrittenInput .tlen)) ∧
      (readsText i = true → s.written.tlen = true →
        ∀ k < s.tlen, Memory.read s.tib k = none → (∀ j < k, (Memory.read s.tib j).isSome) →
          step s = .fault (.unwrittenCell k)))

/-- 93_implementation_defined.md U3, 70_reset_and_hazards.md R94 (log 4): a decode stops at the first cell below TLEN that
holds no value, if it reads that far: DECX and the exact-width operations always; DECB if the cells from its start up to
there run out before N bits; DEC.IP6 if the cells up to there run out before eight segments. -/
def Obligations.AnUnwrittenCellStopsWhatReadsIt : Prop :=
  ∀ (s : State) (k : Nat), k < s.tlen → Memory.read s.tib k = none →
    ((∀ j < k, (Memory.read s.tib j).isSome) →
      ∀ i ∈ [Instr.decU16, .decU32, .decU64, .decIp4, .decx16, .decx32, .decx64],
        exec i s = .fault (.unwrittenCell k)) ∧
    (∀ (n : Width) (start : Nat), start ≤ k → (∀ j, start ≤ j → j < k → (Memory.read s.tib j).isSome) →
      boundedDecode n.bits 0 0 start ((List.range' start (k - start)).filterMap (Memory.read s.tib)) =
        .err .inputTooSmall →
      exec (boundedOf n start) s = .fault (.unwrittenCell k)) ∧
    ((∀ j < k, (Memory.read s.tib j).isSome) →
      (segmentsDecode 1 ((List.range k).filterMap (Memory.read s.tib)) 8 0).2 = some .inputTooSmall →
      exec .decIp6 s = .fault (.unwrittenCell k))
end

