-- ==== Sys2Proof/Laws/State.lean ====
section
/-! SUPPORT. One lemma per field per update of the state, each true by rfl, so that no later proof unfolds a
record update. -/

namespace Sys2Proof.Machine

@[simp] theorem accept_op (s : State) : (accept s).op = s.op := rfl
@[simp] theorem accept_opa (s : State) : (accept s).opa = s.opa := rfl
@[simp] theorem accept_tlen (s : State) : (accept s).tlen = s.tlen := rfl
@[simp] theorem accept_tib (s : State) : (accept s).tib = s.tib := rfl
@[simp] theorem accept_status (s : State) : (accept s).status = s.status := rfl
@[simp] theorem accept_res (s : State) : (accept s).res = s.res := rfl
@[simp] theorem accept_olen (s : State) : (accept s).olen = s.olen := rfl
@[simp] theorem accept_tob (s : State) : (accept s).tob = s.tob := rfl
@[simp] theorem accept_busy (s : State) : (accept s).busy = true := rfl
@[simp] theorem accept_done (s : State) : (accept s).done = false := rfl
@[simp] theorem accept_w (s : State) : (accept s).w = s.w := rfl
@[simp] theorem accept_acc (s : State) : (accept s).acc = s.acc := rfl
@[simp] theorem accept_bitcnt (s : State) : (accept s).bitcnt = s.bitcnt := rfl
@[simp] theorem accept_cur (s : State) : (accept s).cur = s.cur := rfl
@[simp] theorem accept_seg (s : State) : (accept s).seg = s.seg := rfl
@[simp] theorem accept_pending (s : State) : (accept s).pending = s.pending := rfl
@[simp] theorem accept_hostData (s : State) : (accept s).hostData = s.hostData := rfl
@[simp] theorem accept_ret (s : State) : (accept s).ret = s.ret := rfl
@[simp] theorem accept_written (s : State) : (accept s).written = s.written := rfl
@[simp] theorem accept_spoiled (s : State) : (accept s).spoiled = false := rfl
@[simp] theorem accept_free (s : State) : (accept s).free = s.free := rfl

@[simp] theorem complete_op (st : BitVec 2) (r : Value) (o : BitVec 6) (s : State) : (complete st r o s).op = s.op := rfl
@[simp] theorem complete_opa (st : BitVec 2) (r : Value) (o : BitVec 6) (s : State) : (complete st r o s).opa = s.opa := rfl
@[simp] theorem complete_tlen (st : BitVec 2) (r : Value) (o : BitVec 6) (s : State) : (complete st r o s).tlen = s.tlen := rfl
@[simp] theorem complete_tib (st : BitVec 2) (r : Value) (o : BitVec 6) (s : State) : (complete st r o s).tib = s.tib := rfl
@[simp] theorem complete_status (st : BitVec 2) (r : Value) (o : BitVec 6) (s : State) : (complete st r o s).status = st := rfl
@[simp] theorem complete_res (st : BitVec 2) (r : Value) (o : BitVec 6) (s : State) : (complete st r o s).res = r := rfl
@[simp] theorem complete_olen (st : BitVec 2) (r : Value) (o : BitVec 6) (s : State) : (complete st r o s).olen = o := rfl
@[simp] theorem complete_tob (st : BitVec 2) (r : Value) (o : BitVec 6) (s : State) : (complete st r o s).tob = s.tob := rfl
@[simp] theorem complete_busy (st : BitVec 2) (r : Value) (o : BitVec 6) (s : State) : (complete st r o s).busy = false := rfl
@[simp] theorem complete_done (st : BitVec 2) (r : Value) (o : BitVec 6) (s : State) : (complete st r o s).done = true := rfl
@[simp] theorem complete_w (st : BitVec 2) (r : Value) (o : BitVec 6) (s : State) : (complete st r o s).w = s.w := rfl
@[simp] theorem complete_acc (st : BitVec 2) (r : Value) (o : BitVec 6) (s : State) : (complete st r o s).acc = s.acc := rfl
@[simp] theorem complete_bitcnt (st : BitVec 2) (r : Value) (o : BitVec 6) (s : State) : (complete st r o s).bitcnt = s.bitcnt := rfl
@[simp] theorem complete_cur (st : BitVec 2) (r : Value) (o : BitVec 6) (s : State) : (complete st r o s).cur = s.cur := rfl
@[simp] theorem complete_seg (st : BitVec 2) (r : Value) (o : BitVec 6) (s : State) : (complete st r o s).seg = s.seg := rfl
@[simp] theorem complete_pending (st : BitVec 2) (r : Value) (o : BitVec 6) (s : State) : (complete st r o s).pending = s.pending := rfl
@[simp] theorem complete_hostData (st : BitVec 2) (r : Value) (o : BitVec 6) (s : State) : (complete st r o s).hostData = s.hostData := rfl
@[simp] theorem complete_ret (st : BitVec 2) (r : Value) (o : BitVec 6) (s : State) : (complete st r o s).ret = s.ret := rfl
@[simp] theorem complete_written (st : BitVec 2) (r : Value) (o : BitVec 6) (s : State) : (complete st r o s).written = s.written := rfl
@[simp] theorem complete_spoiled (st : BitVec 2) (r : Value) (o : BitVec 6) (s : State) : (complete st r o s).spoiled = s.spoiled := rfl
@[simp] theorem complete_free (st : BitVec 2) (r : Value) (o : BitVec 6) (s : State) : (complete st r o s).free = s.free := rfl

@[simp] theorem withEngine_op (e : Engine) (s : State) : (s.withEngine e).op = s.op := rfl
@[simp] theorem withEngine_opa (e : Engine) (s : State) : (s.withEngine e).opa = s.opa := rfl
@[simp] theorem withEngine_tlen (e : Engine) (s : State) : (s.withEngine e).tlen = s.tlen := rfl
@[simp] theorem withEngine_tib (e : Engine) (s : State) : (s.withEngine e).tib = s.tib := rfl
@[simp] theorem withEngine_status (e : Engine) (s : State) : (s.withEngine e).status = s.status := rfl
@[simp] theorem withEngine_res (e : Engine) (s : State) : (s.withEngine e).res = s.res := rfl
@[simp] theorem withEngine_olen (e : Engine) (s : State) : (s.withEngine e).olen = s.olen := rfl
@[simp] theorem withEngine_tob (e : Engine) (s : State) : (s.withEngine e).tob = s.tob := rfl
@[simp] theorem withEngine_busy (e : Engine) (s : State) : (s.withEngine e).busy = s.busy := rfl
@[simp] theorem withEngine_done (e : Engine) (s : State) : (s.withEngine e).done = s.done := rfl
@[simp] theorem withEngine_w (e : Engine) (s : State) : (s.withEngine e).w = s.w := rfl
@[simp] theorem withEngine_acc (e : Engine) (s : State) : (s.withEngine e).acc = e.acc := rfl
@[simp] theorem withEngine_bitcnt (e : Engine) (s : State) : (s.withEngine e).bitcnt = e.bitcnt := rfl
@[simp] theorem withEngine_cur (e : Engine) (s : State) : (s.withEngine e).cur = e.cur := rfl
@[simp] theorem withEngine_seg (e : Engine) (s : State) : (s.withEngine e).seg = s.seg := rfl
@[simp] theorem withEngine_pending (e : Engine) (s : State) : (s.withEngine e).pending = s.pending := rfl
@[simp] theorem withEngine_hostData (e : Engine) (s : State) : (s.withEngine e).hostData = s.hostData := rfl
@[simp] theorem withEngine_ret (e : Engine) (s : State) : (s.withEngine e).ret = s.ret := rfl
@[simp] theorem withEngine_written (e : Engine) (s : State) : (s.withEngine e).written = s.written := rfl
@[simp] theorem withEngine_spoiled (e : Engine) (s : State) : (s.withEngine e).spoiled = s.spoiled := rfl
@[simp] theorem withEngine_free (e : Engine) (s : State) : (s.withEngine e).free = s.free := rfl

@[simp] theorem spoilIfBusy_op (s : State) : (s.spoilIfBusy).op = s.op := rfl
@[simp] theorem spoilIfBusy_opa (s : State) : (s.spoilIfBusy).opa = s.opa := rfl
@[simp] theorem spoilIfBusy_tlen (s : State) : (s.spoilIfBusy).tlen = s.tlen := rfl
@[simp] theorem spoilIfBusy_tib (s : State) : (s.spoilIfBusy).tib = s.tib := rfl
@[simp] theorem spoilIfBusy_status (s : State) : (s.spoilIfBusy).status = s.status := rfl
@[simp] theorem spoilIfBusy_res (s : State) : (s.spoilIfBusy).res = s.res := rfl
@[simp] theorem spoilIfBusy_olen (s : State) : (s.spoilIfBusy).olen = s.olen := rfl
@[simp] theorem spoilIfBusy_tob (s : State) : (s.spoilIfBusy).tob = s.tob := rfl
@[simp] theorem spoilIfBusy_busy (s : State) : (s.spoilIfBusy).busy = s.busy := rfl
@[simp] theorem spoilIfBusy_done (s : State) : (s.spoilIfBusy).done = s.done := rfl
@[simp] theorem spoilIfBusy_w (s : State) : (s.spoilIfBusy).w = s.w := rfl
@[simp] theorem spoilIfBusy_acc (s : State) : (s.spoilIfBusy).acc = s.acc := rfl
@[simp] theorem spoilIfBusy_bitcnt (s : State) : (s.spoilIfBusy).bitcnt = s.bitcnt := rfl
@[simp] theorem spoilIfBusy_cur (s : State) : (s.spoilIfBusy).cur = s.cur := rfl
@[simp] theorem spoilIfBusy_seg (s : State) : (s.spoilIfBusy).seg = s.seg := rfl
@[simp] theorem spoilIfBusy_pending (s : State) : (s.spoilIfBusy).pending = s.pending := rfl
@[simp] theorem spoilIfBusy_hostData (s : State) : (s.spoilIfBusy).hostData = s.hostData := rfl
@[simp] theorem spoilIfBusy_ret (s : State) : (s.spoilIfBusy).ret = s.ret := rfl
@[simp] theorem spoilIfBusy_written (s : State) : (s.spoilIfBusy).written = s.written := rfl
@[simp] theorem spoilIfBusy_spoiled (s : State) : (s.spoilIfBusy).spoiled = (s.spoiled || s.busy) := rfl
@[simp] theorem spoilIfBusy_free (s : State) : (s.spoilIfBusy).free = s.free := rfl

@[simp] theorem hostReset_op (s : State) : (hostReset s).op = State.reset.op := rfl
@[simp] theorem hostReset_opa (s : State) : (hostReset s).opa = State.reset.opa := rfl
@[simp] theorem hostReset_tlen (s : State) : (hostReset s).tlen = State.reset.tlen := rfl
@[simp] theorem hostReset_tib (s : State) : (hostReset s).tib = State.reset.tib := rfl
@[simp] theorem hostReset_status (s : State) : (hostReset s).status = State.reset.status := rfl
@[simp] theorem hostReset_res (s : State) : (hostReset s).res = State.reset.res := rfl
@[simp] theorem hostReset_olen (s : State) : (hostReset s).olen = State.reset.olen := rfl
@[simp] theorem hostReset_tob (s : State) : (hostReset s).tob = State.reset.tob := rfl
@[simp] theorem hostReset_busy (s : State) : (hostReset s).busy = State.reset.busy := rfl
@[simp] theorem hostReset_done (s : State) : (hostReset s).done = State.reset.done := rfl
@[simp] theorem hostReset_w (s : State) : (hostReset s).w = State.reset.w := rfl
@[simp] theorem hostReset_acc (s : State) : (hostReset s).acc = State.reset.acc := rfl
@[simp] theorem hostReset_bitcnt (s : State) : (hostReset s).bitcnt = State.reset.bitcnt := rfl
@[simp] theorem hostReset_cur (s : State) : (hostReset s).cur = State.reset.cur := rfl
@[simp] theorem hostReset_seg (s : State) : (hostReset s).seg = State.reset.seg := rfl
@[simp] theorem hostReset_pending (s : State) : (hostReset s).pending = s.pending := rfl
@[simp] theorem hostReset_hostData (s : State) : (hostReset s).hostData = s.hostData := rfl
@[simp] theorem hostReset_ret (s : State) : (hostReset s).ret = State.reset.ret := rfl
@[simp] theorem hostReset_written (s : State) : (hostReset s).written = State.reset.written := rfl
@[simp] theorem hostReset_spoiled (s : State) : (hostReset s).spoiled = State.reset.spoiled := rfl
@[simp] theorem hostReset_free (s : State) : (hostReset s).free = s.free := rfl

theorem raiseErr_eq (e : ErrKind) (s : State) : raiseErr e s = complete e.code 0 0 s := rfl

theorem completeDecode_eq (v : Value) (s : State) : completeDecode v s = complete statusOk v 0 s := rfl

theorem completeEncode_eq (s : State) : completeEncode s = complete statusOk 0 s.olen s := rfl

@[simp] theorem completeSpoiled_busy (s : State) : (completeSpoiled s).busy = false := rfl
@[simp] theorem completeSpoiled_done (s : State) : (completeSpoiled s).done = true := rfl
@[simp] theorem completeSpoiled_spoiled (s : State) : (completeSpoiled s).spoiled = false := rfl
@[simp] theorem completeSpoiled_op (s : State) : (completeSpoiled s).op = s.op := rfl
@[simp] theorem completeSpoiled_opa (s : State) : (completeSpoiled s).opa = s.opa := rfl
@[simp] theorem completeSpoiled_tlen (s : State) : (completeSpoiled s).tlen = s.tlen := rfl
@[simp] theorem completeSpoiled_tib (s : State) : (completeSpoiled s).tib = s.tib := rfl
@[simp] theorem completeSpoiled_tob (s : State) : (completeSpoiled s).tob = [] := rfl
@[simp] theorem completeSpoiled_pending (s : State) : (completeSpoiled s).pending = s.pending := rfl
@[simp] theorem completeSpoiled_hostData (s : State) : (completeSpoiled s).hostData = s.hostData := rfl
@[simp] theorem completeSpoiled_ret (s : State) : (completeSpoiled s).ret = s.ret := rfl
@[simp] theorem completeSpoiled_written (s : State) : (completeSpoiled s).written = s.written := rfl

@[simp] theorem engine_acc (s : State) : s.engine.acc = s.acc := rfl
@[simp] theorem engine_bitcnt (s : State) : s.engine.bitcnt = s.bitcnt := rfl
@[simp] theorem engine_cur (s : State) : s.engine.cur = s.cur := rfl

end Sys2Proof.Machine
end

