-- ==== Sys2Proof/Laws/Memory.lean ====
section
/-! SUPPORT. The laws of the text buffers: read after write, and that a write keeps the canonical form. -/

namespace Sys2Proof.Machine

@[simp] theorem memory_read_nil (a : Nat) : Memory.read [] a = none := rfl

/-- A cell reads the character last written to it, and a write changes no other cell. -/
theorem memory_read_write (m : Memory) (a : Nat) (v : Byte) (b : Nat) :
    Memory.read (Memory.write m a v) b = if b = a then some v else Memory.read m b := by
  induction m with
  | nil =>
    by_cases h : a = b
    · simp [Memory.write, Memory.read, h]
    · simp [Memory.write, Memory.read, Memory.unlisted, h, Ne.symm h]
  | cons x m ih =>
    obtain ⟨c, u⟩ := x
    simp only [Memory.write]
    split
    · by_cases h : a = b
      · simp [Memory.read, h]
      · simp [Memory.read, h, Ne.symm h]
    · split
      · subst_vars
        by_cases h : c = b
        · simp [Memory.read, h]
        · simp [Memory.read, h, Ne.symm h]
      · simp only [Memory.read, ih]
        by_cases h : c = b
        · subst h; simp [Ne.symm ‹¬a = c›]
        · simp [h]

@[simp] theorem memory_read_write_same (m : Memory) (a : Nat) (v : Byte) :
    Memory.read (Memory.write m a v) a = some v := by simp [memory_read_write]

/-- The cells listed after a write: the one written, and those listed before. -/
theorem mem_write {m : Memory} {a : Nat} {v : Byte} {x : Host.Cell} (h : x ∈ Memory.write m a v) :
    x = (a, v) ∨ x ∈ m := by
  induction m with
  | nil => simpa [Memory.write] using h
  | cons y m ih =>
    simp only [Memory.write] at h
    split at h
    · simpa using h
    · split at h
      · rcases List.mem_cons.1 h with h | h
        · exact .inl h
        · exact .inr (List.mem_cons_of_mem _ h)
      · rcases List.mem_cons.1 h with h | h
        · exact .inr (h ▸ List.mem_cons_self)
        · rcases ih h with h | h
          · exact .inl h
          · exact .inr (List.mem_cons_of_mem _ h)

/-- A write keeps the canonical form. -/
theorem memory_write_wf {m : Memory} (h : Memory.wf m) (a : Nat) (v : Byte) :
    Memory.wf (Memory.write m a v) := by
  induction m with
  | nil => simp [Memory.write]
  | cons y m ih =>
    obtain ⟨b, u⟩ := y
    obtain ⟨hb, hm⟩ := List.pairwise_cons.1 h
    simp only [Memory.write]
    split
    · refine List.pairwise_cons.2 ⟨fun x hx => ?_, h⟩
      rcases List.mem_cons.1 hx with rfl | hx
      · assumption
      · exact Nat.lt_trans ‹_› (hb x hx)
    · split
      · subst_vars
        exact List.pairwise_cons.2 ⟨hb, hm⟩
      · refine List.pairwise_cons.2 ⟨fun x hx => ?_, ih hm⟩
        rcases mem_write hx with rfl | hx
        · show b < a; omega
        · exact hb x hx

theorem reset_tib_wf : Memory.wf State.reset.tib := List.Pairwise.nil

theorem reset_tob_wf : Memory.wf State.reset.tob := List.Pairwise.nil

/-- A write keeps every listed cell below a bound that the cell written is below. -/
theorem memory_write_cells {m : Memory} {n a : Nat} (v : Byte) (h : ∀ x ∈ m, x.1 < n) (ha : a < n) :
    ∀ x ∈ Memory.write m a v, x.1 < n := by
  intro x hx
  rcases mem_write hx with rfl | hx
  · exact ha
  · exact h x hx

/-- A cell reads as a value only if it is listed. -/
theorem memory_read_some {m : Memory} {a : Nat} {c : Byte} (h : Memory.read m a = some c) : (a, c) ∈ m := by
  induction m with
  | nil => simp at h
  | cons x m ih =>
    obtain ⟨b, u⟩ := x
    simp only [Memory.read] at h
    split at h
    · simp_all
    · exact List.mem_cons_of_mem _ (ih h)

/-- Everything TextRead can do. -/
theorem textRead_ok_iff {s : State} {i : Nat} {c : Byte} :
    textRead s i = .ok c ↔ i < s.tlen ∧ Memory.read s.tib i = some c := by
  unfold textRead
  split
  · cases Memory.read s.tib i <;> simp_all
  · simp_all

/-- TextRead within the text stops only on a cell that holds no value. -/
theorem textRead_error {s : State} {i : Nat} {f : Fault} (hi : i < s.tlen) (h : textRead s i = .error f) :
    f = .unwrittenCell i ∧ Memory.read s.tib i = none := by
  unfold textRead at h
  rw [if_pos hi] at h
  cases hr : Memory.read s.tib i <;> simp_all

/-- Everything TextWrite can do. -/
theorem textWrite_ok_iff {m m' : Memory} {i : Nat} {c : Byte} :
    textWrite m i c = .ok m' ↔ i < 47 ∧ m' = Memory.write m i c := by
  unfold textWrite tobSize
  split <;> simp_all [eq_comm]

/-- TextWrite of a list of characters from cell `i` on, inside the buffer: it succeeds, the cells hold the
characters, no other cell changes, and the buffer's form is kept. -/
theorem writeText_spec (cs : List Byte) (m : Memory) (i : Nat) (h : i + cs.length ≤ 47) :
    ∃ m', writeText m i cs = .ok m' ∧
      (∀ a, Memory.read m' a = if i ≤ a ∧ a < i + cs.length then cs[a - i]? else Memory.read m a) ∧
      (Memory.wf m → Memory.wf m') ∧
      ((∀ x ∈ m, x.1 < 47) → ∀ x ∈ m', x.1 < 47) := by
  induction cs generalizing m i with
  | nil => exact ⟨m, rfl, fun a => by rw [if_neg (by simp only [List.length_nil]; omega)], id, id⟩
  | cons c cs ih =>
    simp only [List.length_cons] at h
    obtain ⟨m', he, hr, hw, hc⟩ := ih (Memory.write m i c) (i + 1) (by omega)
    refine ⟨m', ?_, fun a => ?_, fun h => hw (memory_write_wf h i c),
      fun hm => hc (memory_write_cells c hm (by omega))⟩
    · have hw : textWrite m i c = .ok (Memory.write m i c) := textWrite_ok_iff.2 ⟨by omega, rfl⟩
      simp [writeText, hw, he]
    · rw [hr, memory_read_write]
      simp only [List.length_cons]
      by_cases h1 : a = i
      · subst h1; simp
      · by_cases h2 : i ≤ a ∧ a < i + (cs.length + 1)
        · rw [if_pos (by omega), if_pos h2, show a - i = (a - (i + 1)) + 1 by omega, List.getElem?_cons_succ]
        · rw [if_neg (by omega), if_neg h1, if_neg h2]

/-- Nothing below `n` is unwritten exactly when every cell below `n` holds a value. -/
theorem firstUnwritten_none_iff {m : Memory} {n : Nat} :
    firstUnwritten m n = none ↔ ∀ i < n, (Memory.read m i).isSome := by
  simp [firstUnwritten, Option.isSome_iff_ne_none]

/-- The first unwritten cell below `n`. -/
theorem firstUnwritten_some_iff {m : Memory} {n k : Nat} :
    firstUnwritten m n = some k ↔
      k < n ∧ Memory.read m k = none ∧ ∀ j < k, (Memory.read m j).isSome := by
  simp only [firstUnwritten, List.find?_range_eq_some, Option.isNone_iff_eq_none, List.mem_range]
  constructor
  · rintro ⟨h1, h2, h3⟩
    exact ⟨h2, h1, fun j hj => by simpa [Option.isSome_iff_ne_none] using h3 j hj⟩
  · rintro ⟨h1, h2, h3⟩
    exact ⟨h2, h1, fun j hj => by simpa [Option.isSome_iff_ne_none] using h3 j hj⟩

end Sys2Proof.Machine
end

