-- ==== Sys2Proof/Laws/Operands.lean ====
section
/-! SUPPORT. The laws of the alphabets, the counts and the operand layouts. -/

namespace Sys2Proof.Machine

@[simp] theorem classify_consChar (i : BitVec 4) : classify (consChar i) = .cons i := by
  revert i; decide

@[simp] theorem classify_vowChar (j : BitVec 2) : classify (vowChar j) = .vow j := by
  revert j; decide

@[simp] theorem classify_separator : classify separator = .other := by decide

/-- A character's index is below 2 to its weight. -/
theorem index_lt (k : CharClass) : k.index < 2 ^ k.weight := by
  cases k with
  | cons i => exact i.isLt
  | vow j => exact j.isLt
  | other => simp [CharClass.index, CharClass.weight]

theorem weight_le (k : CharClass) : k.weight ≤ 4 := by
  cases k <;> simp [CharClass.weight]

theorem width_bits_le (n : Width) : n.bits ≤ 64 := by cases n <;> decide

theorem width_bits_pos (n : Width) : 16 ≤ n.bits := by cases n <;> decide

@[simp] theorem countBits_toNat (b : BitVec 7) (k : Nat) :
    (countBits b k).toNat = min (b.toNat + k) 127 := by
  simp only [countBits, BitVec.toNat_ofNat]
  omega

/-- The three-way comparison, by its outcome. -/
theorem compareCount_lt_iff {b : BitVec 7} {n : Nat} : compareCount b n = .lt ↔ b.toNat < n := by
  unfold compareCount; split
  · simp_all
  · split <;> simp_all

theorem compareCount_eq_iff {b : BitVec 7} {n : Nat} : compareCount b n = .eq ↔ b.toNat = n := by
  unfold compareCount; split
  · simp; omega
  · split <;> simp_all

theorem compareCount_gt_iff {b : BitVec 7} {n : Nat} : compareCount b n = .gt ↔ n < b.toNat := by
  unfold compareCount; split
  · simp; omega
  · split
    · simp; omega
    · simp; omega

/-- A concatenation as a number. -/
theorem toNat_append_eq {a b : Nat} (x : BitVec a) (y : BitVec b) :
    (x ++ y).toNat = x.toNat * 2 ^ b + y.toNat := by
  rw [BitVec.toNat_append, ← Nat.shiftLeft_add_eq_or_of_lt y.isLt, Nat.shiftLeft_eq]

/-- The octets packed are the low 32 bits of OPA (43_ipv4_adapter.md R75 "the packing is the identity"). -/
theorem operandIp4_eq (s : State) : operandIp4 s = operandU32 s := by
  unfold operandIp4 operandU32 operandOctet
  apply BitVec.eq_of_toNat_eq
  simp only [toNat_append_eq, BitVec.extractLsb'_toNat, Nat.shiftRight_eq_div_pow]
  omega

/-- The segments put together are OPA (44_ipv6_adapter.md R78). -/
theorem operandIp6_eq (s : State) : operandIp6 s = s.opa := by
  unfold operandIp6 operandSegment
  apply BitVec.eq_of_toNat_eq
  have h := s.opa.isLt
  simp only [toNat_append_eq, BitVec.extractLsb'_toNat, Nat.shiftRight_eq_div_pow]
  omega

/-- The segment registers put together, as the reference puts a list of segments together. -/
theorem joinSegments_eq (seg : Vector (BitVec 16) 8) :
    joinSegments seg = joinValue [seg[0], seg[1], seg[2], seg[3], seg[4], seg[5], seg[6], seg[7]] := by
  unfold joinSegments joinValue
  apply BitVec.eq_of_toNat_eq
  simp only [toNat_append_eq, List.foldl_cons, List.foldl_nil, BitVec.toNat_ofNat]
  have h0 := seg[0].isLt
  have h1 := seg[1].isLt
  have h2 := seg[2].isLt
  have h3 := seg[3].isLt
  have h4 := seg[4].isLt
  have h5 := seg[5].isLt
  have h6 := seg[6].isLt
  have h7 := seg[7].isLt
  omega

end Sys2Proof.Machine
end

