-- ==== Sys2Proof/Laws/Engine.lean ====
section
/-! SUPPORT. What the decode engine does, said once: ACCUM, the two scans, DECX and DECB, as the reference
functions of Safety.lean say it. -/

namespace Sys2Proof.Machine

/-- The engine after consuming the characters of a list. -/
def consume : List Byte → Engine → Engine
  | [], e => e
  | c :: cs, e => consume cs { accum c e with cur := e.cur + 1 }

@[simp] theorem accum_cur (c : Byte) (e : Engine) : (accum c e).cur = e.cur := by
  unfold accum; split <;> rfl

/-- ACCUM counts the character's bits, saturating at 127 (R57). -/
theorem accum_bitcnt (c : Byte) (e : Engine) :
    (accum c e).bitcnt.toNat = min (e.bitcnt.toNat + (classify c).weight) 127 := by
  unfold accum
  split <;> rename_i h <;> simp only [h, CharClass.weight, countBits_toNat]
  have := e.bitcnt.isLt
  omega

/-- ACCUM shifts the character's index in, modulo 2^64 (R57). -/
theorem accum_acc (c : Byte) (e : Engine) :
    (accum c e).acc.toNat = (e.acc.toNat * 2 ^ (classify c).weight + (classify c).index) % 2 ^ 64 := by
  unfold accum
  split <;> rename_i h <;> simp only [h, CharClass.weight, CharClass.index]
  · rename_i i
    have := i.isLt
    simp only [BitVec.toNat_add, BitVec.toNat_shiftLeft, BitVec.toNat_setWidth, Nat.shiftLeft_eq]
    omega
  · rename_i j
    have := j.isLt
    simp only [BitVec.toNat_add, BitVec.toNat_shiftLeft, BitVec.toNat_setWidth, Nat.shiftLeft_eq]
    omega
  · have := e.acc.isLt
    omega

@[simp] theorem consume_cur (cs : List Byte) (e : Engine) : (consume cs e).cur = e.cur + cs.length := by
  induction cs generalizing e with
  | nil => rfl
  | cons c cs ih => simp only [consume, ih, List.length_cons]; omega

/-- The count after a list of characters: their bits, saturating at 127 (R58). -/
theorem consume_bitcnt (cs : List Byte) (e : Engine) :
    (consume cs e).bitcnt.toNat = min (e.bitcnt.toNat + textBits cs) 127 := by
  induction cs generalizing e with
  | nil => have := e.bitcnt.isLt; simp only [consume, textBits]; omega
  | cons c cs ih => simp only [consume, ih, accum_bitcnt, textBits]; omega

/-- A value is shifted by the bits of the text that follows. -/
theorem textValue_eq (v : Nat) (cs : List Byte) : textValue v cs = v * 2 ^ textBits cs + textValue 0 cs := by
  induction cs generalizing v with
  | nil => simp [textValue, textBits]
  | cons c cs ih =>
    simp only [textValue, textBits]
    rw [ih, ih (0 * _ + _), pow_add]
    ring

/-- The value of a text fits in its bits (R58 (b)). -/
theorem textValue_lt (cs : List Byte) : textValue 0 cs < 2 ^ textBits cs := by
  induction cs with
  | nil => simp [textValue, textBits]
  | cons c cs ih =>
    have h := index_lt (classify c)
    simp only [textValue, textBits]
    rw [textValue_eq, pow_add]
    nlinarith [Nat.two_pow_pos (textBits cs)]

theorem textValue_append (v : Nat) (a b : List Byte) : textValue v (a ++ b) = textValue (textValue v a) b := by
  induction a generalizing v with
  | nil => rfl
  | cons c a ih => simp only [List.cons_append, textValue, ih]

theorem textBits_append (a b : List Byte) : textBits (a ++ b) = textBits a + textBits b := by
  induction a with
  | nil => simp [textBits]
  | cons c a ih => simp only [List.cons_append, textBits, ih]; omega

/-- ACC after a list of characters, modulo 2^64 (R57, R58). -/
theorem consume_acc (cs : List Byte) (e : Engine) :
    (consume cs e).acc.toNat = textValue e.acc.toNat cs % 2 ^ 64 := by
  induction cs generalizing e with
  | nil => have := e.acc.isLt; simp only [consume, textValue]; omega
  | cons c cs ih =>
    simp only [consume, ih, textValue, accum_acc]
    rw [textValue_eq, textValue_eq (e.acc.toNat * _ + _), Nat.add_mod, Nat.mod_mul_mod, ← Nat.add_mod]

/-- The engine after a whole text from its initial registers (R57, R58). -/
theorem consume_eq (cs : List Byte) (k : Nat) :
    consume cs ⟨0, 0, k⟩ =
      ⟨BitVec.ofNat 64 (textValue 0 cs), BitVec.ofNat 7 (min (textBits cs) 127), k + cs.length⟩ := by
  have ha : (consume cs ⟨0, 0, k⟩).acc.toNat = textValue 0 cs % 2 ^ 64 := consume_acc cs ⟨0, 0, k⟩
  have hb := consume_bitcnt cs ⟨0, 0, k⟩
  have hc := consume_cur cs ⟨0, 0, k⟩
  generalize consume cs ⟨0, 0, k⟩ = e at ha hb hc
  obtain ⟨acc, bitcnt, cur⟩ := e
  congr 1
  · exact BitVec.eq_of_toNat_eq (by rw [ha, BitVec.toNat_ofNat])
  · refine BitVec.eq_of_toNat_eq (by rw [hb, BitVec.toNat_ofNat]; simp only [BitVec.ofNat_eq_ofNat, BitVec.toNat_ofNat]; omega)

/-- A bounded decode examines at most N + 2 bits (R60 corner case (f)). -/
theorem boundedTaken_bits {n b : Nat} (cs : List Byte) (hb : b < n) : b + textBits (boundedTaken n b cs) < n + 4 := by
  induction cs generalizing b with
  | nil => simp only [boundedTaken, textBits]; omega
  | cons c cs ih =>
    have hw := weight_le (classify c)
    simp only [boundedTaken]
    split
    · simp only [textBits]; omega
    · have := ih (b := b + (classify c).weight) (by omega)
      simp only [textBits]; omega

/-- The text's cells, where every one below TLEN holds a value. -/
theorem text_length {s : State} (h : s.readable) : s.text.length = s.tlen := by
  have key : ∀ n ≤ s.tlen, ((List.range n).filterMap (Memory.read s.tib)).length = n := by
    intro n hn
    induction n with
    | zero => rfl
    | succ n ih =>
      obtain ⟨c, hc⟩ := Option.isSome_iff_exists.1 (h n (by omega))
      simp [List.range_succ, List.filterMap_append, ih (by omega), hc]
  exact key _ (Nat.le_refl _)

theorem text_getElem? {s : State} (h : s.readable) {i : Nat} (hi : i < s.tlen) :
    s.text[i]? = Memory.read s.tib i := by
  have len : ∀ n ≤ s.tlen, ((List.range n).filterMap (Memory.read s.tib)).length = n := by
    intro n hn
    induction n with
    | zero => rfl
    | succ n ih =>
      obtain ⟨c, hc⟩ := Option.isSome_iff_exists.1 (h n (by omega))
      simp [List.range_succ, List.filterMap_append, ih (by omega), hc]
  have key : ∀ n ≤ s.tlen, i < n → ((List.range n).filterMap (Memory.read s.tib))[i]? = Memory.read s.tib i := by
    intro n hn hin
    induction n with
    | zero => omega
    | succ n ih =>
      obtain ⟨c, hc⟩ := Option.isSome_iff_exists.1 (h n (by omega))
      rw [List.range_succ, List.filterMap_append]
      by_cases hi : i < n
      · rw [List.getElem?_append_left (by rw [len n (by omega)]; exact hi)]
        exact ih (by omega) hi
      · obtain rfl : i = n := by omega
        rw [List.getElem?_append_right (by rw [len i (by omega)]), len i (by omega)]
        simp [hc]
  exact key _ (Nat.le_refl _) hi

/-- A readable cell of the text: TextRead succeeds with the next character of the text. -/
theorem textRead_text {s : State} (h : s.readable) {i : Nat} (hi : i < s.tlen) :
    ∃ c, textRead s i = .ok c ∧ s.text.drop i = c :: s.text.drop (i + 1) := by
  obtain ⟨c, hc⟩ := Option.isSome_iff_exists.1 (h i hi)
  refine ⟨c, textRead_ok_iff.2 ⟨hi, hc⟩, ?_⟩
  have hl : i < s.text.length := by rw [text_length h]; exact hi
  have hg := text_getElem? h hi
  rw [hc, List.getElem?_eq_getElem hl] at hg
  rw [List.drop_eq_getElem_cons hl, Option.some.inj hg]

/-- DECX's scan consumes the rest of the text. -/
theorem exactScan_eq {s : State} (h : s.readable) (todo : Nat) (e : Engine) (hc : e.cur + todo = s.tlen) :
    exactScan s todo e = .ok (consume (s.text.drop e.cur) e) := by
  induction todo generalizing e with
  | zero =>
    rw [List.drop_eq_nil_of_le (by rw [text_length h]; omega)]
    rfl
  | succ todo ih =>
    obtain ⟨c, hr, hd⟩ := textRead_text h (i := e.cur) (by omega)
    simp only [exactScan, hr]
    rw [ih _ (by show e.cur + 1 + todo = _; omega), hd]
    rfl

/-- Where exactly the register count says N, the register value is the text's value (R58 (b)). -/
theorem consume_value {cs : List Byte} {n : Width} {k : Nat} (h : textBits cs = n.bits) :
    (consume cs ⟨0, 0, k⟩).value n = BitVec.ofNat 64 (textValue 0 cs) := by
  have hv := textValue_lt cs
  have hn := width_bits_le n
  have hp : 2 ^ n.bits ≤ 2 ^ 64 := Nat.pow_le_pow_right (by decide) hn
  have ha : (consume cs ⟨0, 0, k⟩).acc.toNat = textValue 0 cs % 2 ^ 64 := consume_acc cs ⟨0, 0, k⟩
  rw [h] at hv
  apply BitVec.eq_of_toNat_eq
  simp only [Engine.value, BitVec.toNat_setWidth, BitVec.toNat_ofNat]
  have h64 : textValue 0 cs < 2 ^ 64 := by omega
  rw [ha, Nat.mod_eq_of_lt h64, Nat.mod_eq_of_lt hv, Nat.mod_eq_of_lt h64]

/-- DECX's verdict on the registers is the reference's verdict on the text (R58, R59). -/
theorem exactVerdict_eq (cs : List Byte) (n : Width) (k : Nat) :
    exactVerdict n (consume cs ⟨0, 0, k⟩) = exactDecode n.bits cs := by
  have hb : (consume cs ⟨0, 0, k⟩).bitcnt.toNat = min (textBits cs) 127 := by
    rw [consume_bitcnt]; simp
  have hn := width_bits_le n
  unfold exactVerdict exactDecode
  rcases Nat.lt_trichotomy (textBits cs) n.bits with h | h | h
  · rw [compareCount_lt_iff.2 (by omega), if_neg (by omega), if_pos h]
  · rw [compareCount_eq_iff.2 (by omega), if_pos h, consume_value h]
  · rw [compareCount_gt_iff.2 (by omega), if_neg (by omega), if_neg (by omega)]

/-- DECX on a readable text: the engine consumes all of it, and the result is the reference's (R59). -/
theorem decx_eq {s : State} (h : s.readable) (n : Width) :
    decx n s = .ok (consume s.text ⟨0, 0, 0⟩, exactDecode n.bits s.text) := by
  unfold decx
  rw [exactScan_eq h s.tlen ⟨0, 0, 0⟩ (Nat.zero_add _)]
  show Except.ok (consume s.text ⟨0, 0, 0⟩, exactVerdict n (consume s.text ⟨0, 0, 0⟩)) = _
  rw [exactVerdict_eq]

/-- DECB's scan from registers that hold `b` bits of value `v`: the reference's result, the characters examined
accumulated, and CUR where the scan stopped, inside the text. -/
theorem boundedScan_eq {s : State} (h : s.readable) (n : Width) (todo : Nat) (e : Engine)
    (hc : e.cur + todo = s.tlen) (hb : e.bitcnt.toNat < n.bits) (hv : e.acc.toNat < 2 ^ e.bitcnt.toNat) :
    ∃ e', boundedScan n s todo e =
        .ok (e', boundedDecode n.bits e.bitcnt.toNat e.acc.toNat e.cur (s.text.drop e.cur)) ∧
      e'.cur ≤ s.tlen ∧ e'.cur = boundedStop n.bits e.bitcnt.toNat e.cur (s.text.drop e.cur) ∧
      e'.acc.toNat =
        textValue e.acc.toNat (boundedTaken n.bits e.bitcnt.toNat (s.text.drop e.cur)) % 2 ^ 64 ∧
      e'.bitcnt.toNat =
        min (e.bitcnt.toNat + textBits (boundedTaken n.bits e.bitcnt.toNat (s.text.drop e.cur))) 127 := by
  induction todo generalizing e with
  | zero =>
    rw [List.drop_eq_nil_of_le (by rw [text_length h]; omega)]
    have := e.acc.isLt
    have := e.bitcnt.isLt
    exact ⟨e, rfl, by omega, rfl, by simp only [boundedTaken, textValue]; omega,
      by simp only [boundedTaken, textBits]; omega⟩
  | succ todo ih =>
    obtain ⟨c, hr, hd⟩ := textRead_text h (i := e.cur) (by omega)
    have hn := width_bits_le n
    have hw := weight_le (classify c)
    have hi := index_lt (classify c)
    have hbit : (accum c e).bitcnt.toNat = e.bitcnt.toNat + (classify c).weight := by
      rw [accum_bitcnt]; omega
    simp only [boundedScan, hr, hd, boundedDecode, boundedStop, boundedTaken, ← hbit]
    have hval : e.acc.toNat * 2 ^ (classify c).weight + (classify c).index
        < 2 ^ (accum c e).bitcnt.toNat := by
      rw [hbit, pow_add]
      nlinarith [Nat.two_pow_pos (classify c).weight]
    have hlast : (accum c e).bitcnt.toNat = min (e.bitcnt.toNat + textBits [c]) 127 := by
      rw [accum_bitcnt]; simp only [textBits, Nat.add_zero]
    rcases Nat.lt_trichotomy (accum c e).bitcnt.toNat n.bits with hlt | heq | hgt
    · have h64 : 2 ^ (accum c e).bitcnt.toNat ≤ 2 ^ 64 := Nat.pow_le_pow_right (by decide) (by omega)
      have hacc : (accum c e).acc.toNat = e.acc.toNat * 2 ^ (classify c).weight + (classify c).index := by
        rw [accum_acc, Nat.mod_eq_of_lt (by omega)]
      rw [compareCount_lt_iff.2 hlt, if_neg (by omega), if_neg (by omega), if_neg (by omega), if_neg (by omega)]
      obtain ⟨e', h1, h2, h3, h4, h5⟩ := ih { accum c e with cur := (accum c e).cur + 1 } (by simp; omega) hlt (by
        show (accum c e).acc.toNat < _
        rw [hacc]; exact hval)
      refine ⟨e', by simpa [hacc] using h1, h2, by simpa using h3, by simpa [hacc, textValue] using h4, ?_⟩
      simp only [accum_cur] at h5
      rw [h5]
      simp only [textBits]
      omega
    · rw [compareCount_eq_iff.2 heq, if_pos heq, if_pos (by omega), if_pos (by omega)]
      refine ⟨accum c e, ?_, by rw [accum_cur]; omega, accum_cur c e, accum_acc c e, hlast⟩
      rw [heq] at hval
      have h64 : 2 ^ n.bits ≤ 2 ^ 64 := Nat.pow_le_pow_right (by decide) hn
      have hacc : (accum c e).acc.toNat = e.acc.toNat * 2 ^ (classify c).weight + (classify c).index := by
        rw [accum_acc, Nat.mod_eq_of_lt (by omega)]
      have hval' : (accum c e).value n =
          BitVec.ofNat 64 (e.acc.toNat * 2 ^ (classify c).weight + (classify c).index) := by
        apply BitVec.eq_of_toNat_eq
        simp only [Engine.value, BitVec.toNat_setWidth, BitVec.toNat_ofNat, hacc]
        rw [Nat.mod_eq_of_lt hval]
      simp [hval']
    · rw [compareCount_gt_iff.2 hgt, if_neg (by omega), if_pos hgt, if_pos (by omega), if_pos (by omega)]
      exact ⟨accum c e, rfl, by rw [accum_cur]; omega, accum_cur c e, accum_acc c e, hlast⟩

/-- DECB on a readable text: the reference's result on the cells from `start` on, the characters examined accumulated,
and CUR where the scan stopped, inside the text (R60). -/
theorem decb_eq {s : State} (h : s.readable) (n : Width) (start : Nat) :
    ∃ e, decb n start s = .ok (e, boundedDecode n.bits 0 0 start (s.text.drop start)) ∧ e.cur ≤ s.tlen ∧
      e = ⟨BitVec.ofNat 64 (textValue 0 (boundedTaken n.bits 0 (s.text.drop start))),
        BitVec.ofNat 7 (textBits (boundedTaken n.bits 0 (s.text.drop start))),
        boundedStop n.bits 0 (min start s.tlen) (s.text.drop start)⟩ := by
  have hn := width_bits_pos n
  have hn' := width_bits_le n
  have hl := text_length h
  obtain ⟨e, he, hc, h1, h2, h3⟩ := boundedScan_eq h n (s.tlen - min start s.tlen) ⟨0, 0, min start s.tlen⟩
    (by show min start s.tlen + _ = _; omega) (Nat.lt_of_lt_of_le (show (0 : Nat) < 16 by decide) hn)
    (show (0 : Nat) < 1 by decide)
  have hd : s.text.drop (min start s.tlen) = s.text.drop start := by
    rcases Nat.le_total start s.tlen with hs | hs
    · rw [Nat.min_eq_left hs]
    · rw [Nat.min_eq_right hs, List.drop_eq_nil_of_le (by omega), List.drop_eq_nil_of_le (by omega)]
  simp only [hd] at he h1 h2 h3
  change e.cur = boundedStop n.bits 0 _ _ at h1
  change e.acc.toNat = textValue 0 (boundedTaken n.bits 0 _) % _ at h2
  change e.bitcnt.toNat = min (0 + textBits (boundedTaken n.bits 0 _)) 127 at h3
  refine ⟨e, ?_, hc, ?_⟩
  · unfold decb
    rw [he]
    rcases Nat.le_total start s.tlen with hs | hs
    · simp [Nat.min_eq_left hs]
    · rw [List.drop_eq_nil_of_le (by omega)]
      rfl
  · have hm := boundedTaken_bits (n := n.bits) (b := 0) (s.text.drop start) (by omega)
    obtain ⟨acc, bitcnt, cur⟩ := e
    congr 1
    · exact BitVec.eq_of_toNat_eq (by rw [BitVec.toNat_ofNat]; exact h2)
    · refine BitVec.eq_of_toNat_eq ?_
      rw [BitVec.toNat_ofNat]
      change bitcnt.toNat = _ at h3
      omega

/-- The engine reads the state only through TextRead and TLEN. -/
theorem textRead_congr {s s' : State} (h : sameText s s') : textRead s = textRead s' := by
  funext i
  unfold textRead
  rw [← h.1]
  split
  · rw [h.2 i ‹_›]
  · rfl

theorem exactScan_congr {s s' : State} (h : sameText s s') (todo : Nat) (e : Engine) :
    exactScan s todo e = exactScan s' todo e := by
  induction todo generalizing e with
  | zero => rfl
  | succ todo ih => simp only [exactScan, textRead_congr h, ih]

/-- DECX depends on nothing but the text (00_scope.md R5). -/
theorem decx_congr {s s' : State} (h : sameText s s') (n : Width) : decx n s = decx n s' := by
  unfold decx; rw [h.1, exactScan_congr h]

theorem boundedScan_congr {s s' : State} (h : sameText s s') (n : Width) (todo : Nat) (e : Engine) :
    boundedScan n s todo e = boundedScan n s' todo e := by
  induction todo generalizing e with
  | zero => rfl
  | succ todo ih => simp only [boundedScan, textRead_congr h, ih]

/-- DECB depends on nothing but the text and the start cell (00_scope.md R5). -/
theorem decb_congr {s s' : State} (h : sameText s s') (n : Width) (start : Nat) :
    decb n start s = decb n start s' := by
  unfold decb; rw [h.1, boundedScan_congr h]

end Sys2Proof.Machine
end

