-- ==== Sys2Proof/Laws/Adapters.lean ====
section
/-! SUPPORT. What the syllable encoder, ENCN and the adapters do, said once, as the reference functions of
Safety.lean say it. -/

namespace Sys2Proof.Machine

/-- Shifting W and taking its top bits is slicing the value (R54: "the same function as rule R53"). -/
theorem shl_slice (v : BitVec 16) (k hi len : Nat) (hk : k ≤ hi) (hl : hi + len ≤ 16) :
    (v <<< k).extractLsb' hi len = v.extractLsb' (hi - k) len := by
  apply BitVec.eq_of_getLsbD_eq
  intro i hi'
  simp only [BitVec.getLsbD_extractLsb', BitVec.getLsbD_shiftLeft, hi', decide_true, Bool.true_and]
  rw [show hi - k + i = hi + i - k by omega]
  simp [show ¬hi + i < k by omega, show hi + i < 16 by omega]

/-- SYLENC on W gives the five look-ups, and W = 0 (R53, R54). -/
theorem sylencode_eq (v : Chunk) : sylencode v = (syllableText v, 0) := by
  have h : ∀ a b : Nat, v <<< a <<< b = v <<< (a + b) := fun a b => (BitVec.shiftLeft_add v a b).symm
  simp only [sylencode, sylChars, extractLoop, extract, syllableText, syllableChar]
  norm_num [h, shl_slice]
  simp

theorem syllableText_length (v : Chunk) : (syllableText v).length = 5 := rfl

theorem syllableText_getElem? (v : Chunk) (j : Nat) (hj : j < 5) :
    (syllableText v)[j]? = some (syllableChar v j) := by
  match j, hj with
  | 0, _ => rfl
  | 1, _ => rfl
  | 2, _ => rfl
  | 3, _ => rfl
  | 4, _ => rfl

/-- ENCN's loop from chunk n - todo on: W = 0, the rest of the proquint in its cells, every other cell as it
was, and the buffer's form kept (R66). -/
theorem encodeLoop_spec {len : Nat} (v : BitVec len) (n todo : Nat) (w : BitVec 16) (tob : Memory)
    (hn : n ≤ 8) (ht : todo ≤ n) :
    ∃ tob', encodeLoop v n todo w tob = .ok (if todo = 0 then w else 0, tob') ∧
      (∀ a, Memory.read tob' a =
        if 6 * (n - todo) ≤ a ∧ a < 6 * n - 1 then some (proquintCell v n a) else Memory.read tob a) ∧
      (Memory.wf tob → Memory.wf tob') ∧
      ((∀ x ∈ tob, x.1 < 47) → ∀ x ∈ tob', x.1 < 47) := by
  induction todo generalizing w tob with
  | zero => exact ⟨tob, rfl, fun a => by rw [if_neg (by omega)], id, id⟩
  | succ todo ih =>
    obtain ⟨tob1, hw, hr, hf, hc⟩ :=
      writeText_spec (syllableText (chunk v n (n - (todo + 1)))) tob (6 * (n - (todo + 1)))
        (by rw [syllableText_length]; omega)
    rw [syllableText_length] at hr
    simp only [encodeLoop, sylencode_eq, hw]
    have cell : ∀ a, 6 * (n - (todo + 1)) ≤ a → a < 6 * (n - (todo + 1)) + 5 →
        Memory.read tob1 a = some (proquintCell v n a) := by
      intro a h1 h2
      rw [hr, if_pos ⟨h1, h2⟩, syllableText_getElem? _ _ (by omega), proquintCell, if_neg (by omega)]
      rw [show a / 6 = n - (todo + 1) by omega, show a % 6 = a - 6 * (n - (todo + 1)) by omega]
    by_cases h0 : todo = 0
    · subst h0
      refine ⟨tob1, by simp, fun a => ?_, hf, hc⟩
      by_cases ha : 6 * (n - (0 + 1)) ≤ a ∧ a < 6 * n - 1
      · rw [if_pos ha]; exact cell a ha.1 (by omega)
      · rw [if_neg ha, hr, if_neg (by omega)]
    · have hs : textWrite tob1 (6 * (n - (todo + 1)) + 5) separator =
          .ok (Memory.write tob1 (6 * (n - (todo + 1)) + 5) separator) := textWrite_ok_iff.2 ⟨by omega, rfl⟩
      simp only [h0, if_false, hs]
      obtain ⟨tob', he, hr', hf', hc'⟩ := ih 0 (Memory.write tob1 (6 * (n - (todo + 1)) + 5) separator) (by omega)
      refine ⟨tob', by simpa using he, fun a => ?_,
        fun h => hf' (memory_write_wf (hf h) _ _),
        fun h => hc' (memory_write_cells _ (hc h) (by omega))⟩
      rw [hr', memory_read_write]
      by_cases h1 : 6 * (n - todo) ≤ a ∧ a < 6 * n - 1
      · rw [if_pos h1, if_pos (by omega)]
      · rw [if_neg h1]
        by_cases h2 : a = 6 * (n - (todo + 1)) + 5
        · rw [if_pos h2, if_pos (by omega), proquintCell, if_pos (by omega)]
        · rw [if_neg h2]
          by_cases h3 : 6 * (n - (todo + 1)) ≤ a ∧ a < 6 * n - 1
          · rw [if_pos h3]; exact cell a h3.1 (by omega)
          · rw [if_neg h3, hr, if_neg (by omega)]

/-- An encode operation completes in every state, with the effect of R66 and the outputs of R17 to R19. -/
theorem runEncode_spec {len : Nat} (v : BitVec len) (n : Nat) (s : State) (h1 : 1 ≤ n) (hn : n ≤ 8) :
    ∃ t, runEncode v n s = .next t ∧ encodeEffect v n s t ∧
      (Memory.wf s.tob → Memory.wf t.tob) ∧ ((∀ x ∈ s.tob, x.1 < 47) → ∀ x ∈ t.tob, x.1 < 47) := by
  obtain ⟨tob, he, hr, hf, hc⟩ := encodeLoop_spec v n n s.w s.tob hn (Nat.le_refl n)
  rw [if_neg (by omega)] at he
  refine ⟨_, by unfold runEncode encodeN; rw [he], ⟨rfl, fun a => ?_⟩, hf, hc⟩
  show Memory.read tob a = _
  rw [hr]
  simp

/-- An exact-width decode completes on every readable text, with the effect of R59 and R86. -/
theorem runDecode_spec {s : State} (h : s.readable) (n : Width) :
    ∃ t, runDecode n s = .next t ∧ exactEffect n.bits s t := by
  unfold runDecode exactEffect
  rw [decx_eq h, consume_eq, text_length h, Nat.zero_add]
  unfold exactDecode
  rcases Nat.lt_trichotomy (textBits s.text) n.bits with hb | hb | hb
  · rw [if_neg (by omega), if_pos hb]
    exact ⟨_, rfl, rfl, fun h => by omega, fun _ => ⟨rfl, rfl⟩, fun h => by omega⟩
  · rw [if_pos hb]
    refine ⟨_, rfl, rfl, fun _ => ⟨rfl, ?_⟩, fun h => by omega, fun h => by omega⟩
    have hv := textValue_lt s.text
    have hp : 2 ^ n.bits ≤ 2 ^ 64 := Nat.pow_le_pow_right (by decide) (width_bits_le n)
    rw [hb] at hv
    apply BitVec.eq_of_toNat_eq
    show ((BitVec.ofNat 64 (textValue 0 s.text)).setWidth 128).toNat = _
    simp only [BitVec.toNat_setWidth, BitVec.toNat_ofNat]
    omega
  · rw [if_neg (by omega), if_neg (by omega)]
    exact ⟨_, rfl, rfl, fun h => by omega, fun h => by omega, fun _ => ⟨rfl, rfl⟩⟩

/-- R79's loop on a readable text gives the reference's segments and its first error; CUR stays inside the text. -/
theorem segmentLoop_spec {s : State} (h : s.readable) (skip todo start : Nat) (e : Engine)
    (seg : Vector (BitVec 16) 8) (ht : todo ≤ 8) (hc : todo = 0 → e.cur ≤ s.tlen) :
    ∃ e' seg', e'.cur ≤ s.tlen ∧
      segmentLoop skip s todo start e seg = .ok (e', seg', (segmentsDecode skip s.text todo start).2) ∧
      seg'.toList = seg.toList.take (8 - todo) ++ (segmentsDecode skip s.text todo start).1 ++
        seg.toList.drop (8 - todo + (segmentsDecode skip s.text todo start).1.length) := by
  induction todo generalizing start e seg with
  | zero =>
    refine ⟨e, seg, hc rfl, rfl, ?_⟩
    simp [segmentsDecode]
  | succ todo ih =>
    obtain ⟨e1, he, hcur, -⟩ := decb_eq h .w16 start
    simp only [segmentsDecode, segmentLoop, he]
    show ∃ e' seg', _ ∧ _
    rw [show Width.w16.bits = 16 from rfl]
    cases hb : boundedDecode 16 0 0 start (s.text.drop start) with
    | err k => exact ⟨e1, seg, hcur, rfl, by simp⟩
    | ok g c idx =>
      obtain ⟨e', seg', hc', hl', hm⟩ := ih (idx + skip) e1 (seg.setIfInBounds (8 - (todo + 1)) (g.setWidth 16))
        (by omega) (fun _ => hcur)
      refine ⟨e', seg', hc', hl', hm.trans ?_⟩
      have hl : seg.toList.length = 8 := by simp
      rw [Vector.toList_setIfInBounds, show 8 - todo = (8 - (todo + 1)) + 1 by omega,
        List.take_add_one, List.getElem?_set_self (by omega), List.take_set_of_le (Nat.le_refl _),
        List.drop_set_of_lt (by omega)]
      simp only [Option.toList_some, List.append_assoc, List.cons_append, List.nil_append, List.length_cons]
      congr 4
      omega

theorem segmentsDecode_length {skip : Nat} {t : List Byte} {todo start : Nat}
    (h : (segmentsDecode skip t todo start).2 = none) : (segmentsDecode skip t todo start).1.length = todo := by
  induction todo generalizing start with
  | zero => rfl
  | succ todo ih =>
    simp only [segmentsDecode] at h ⊢
    split at h
    · cases h
    · simp [ih h]

/-- DEC.IP6 for any resume skip completes on every readable text: the reference's segments joined with STATUS =
OK, or its first error; CUR stays inside the text; nothing else changes but ACC, BITCNT and SEG (R79, R86). -/
theorem runDecodeIp6_spec {s : State} (h : s.readable) (skip : Nat) :
    ∃ t, runDecodeIp6 skip s = .next t ∧ segmentsEffect skip s t ∧ t.cur ≤ s.tlen := by
  obtain ⟨e, seg, hc, hm, hg⟩ := segmentLoop_spec h skip 8 0 s.engine s.seg (Nat.le_refl 8) (fun h => by omega)
  have hg : seg.toList = (segmentsDecode skip s.text 8 0).1 ++
      s.seg.toList.drop (segmentsDecode skip s.text 8 0).1.length := by simpa using hg
  unfold runDecodeIp6 segmentsEffect
  have hn := segmentsDecode_length (skip := skip) (t := s.text) (todo := 8) (start := 0)
  generalize segmentsDecode skip s.text 8 0 = r at hm hg hn
  obtain ⟨gs, err⟩ := r
  rw [hm]
  cases err with
  | some k =>
    refine ⟨_, rfl, ⟨rfl, hg, fun h => ?_, fun _ h => ?_⟩, hc⟩
    · cases h
    · cases h; exact ⟨rfl, rfl⟩
  | none =>
    refine ⟨_, rfl, ⟨rfl, hg, fun _ => ⟨rfl, ?_⟩, fun _ h => ?_⟩, hc⟩
    case refine_2 => cases h
    have hl : gs.length = 8 := hn rfl
    have hg : seg.toList = gs := by
      rw [hg, hl, List.drop_eq_nil_of_le (by simp), List.append_nil]
    show joinSegments seg = _
    rw [joinSegments_eq, ← hg]
    congr 1
    apply List.ext_getElem
    · simp
    · intro i h1 h2
      simp only [List.length_cons, List.length_nil] at h1
      match i, h1 with
      | 0, _ => simp
      | 1, _ => simp
      | 2, _ => simp
      | 3, _ => simp
      | 4, _ => simp
      | 5, _ => simp
      | 6, _ => simp
      | 7, _ => simp

/-- R79's loop gives the same segments or the same first error whatever the engine's registers and SEG held before:
it needs only the SEG registers it does not itself write (10_state.md R11). -/
theorem segmentLoop_agree {s : State} (skip todo start : Nat) (e1 e2 : Engine) (g1 g2 : Vector (BitVec 16) 8)
    (ht : todo ≤ 8) (hg : ∀ k (h : k < 8), k < 8 - todo → g1[k] = g2[k]) :
    match segmentLoop skip s todo start e1 g1, segmentLoop skip s todo start e2 g2 with
    | .ok (_, a, none), .ok (_, b, none) => a = b
    | .ok (_, _, some k), .ok (_, _, some k') => k = k'
    | .error f, .error f' => f = f'
    | _, _ => False := by
  induction todo generalizing start e1 e2 g1 g2 with
  | zero =>
    simp only [segmentLoop]
    apply Vector.ext
    intro k h
    exact hg k h h
  | succ todo ih =>
    simp only [segmentLoop]
    cases decb .w16 start s with
    | error f => simp
    | ok r =>
      obtain ⟨e, r⟩ := r
      cases r with
      | err k => simp
      | ok g c idx =>
        simp only
        apply ih _ _ _ _ _ (by omega)
        intro k h hk
        by_cases hk' : k = 8 - (todo + 1)
        · subst hk'; simp
        · rw [Vector.getElem_setIfInBounds_ne, Vector.getElem_setIfInBounds_ne]
          exact hg k h (by omega)
          all_goals omega

/-- R79's loop depends on nothing but the text. -/
theorem segmentLoop_congr {s s' : State} (h : sameText s s') (skip todo start : Nat) (e : Engine)
    (seg : Vector (BitVec 16) 8) : segmentLoop skip s todo start e seg = segmentLoop skip s' todo start e seg := by
  induction todo generalizing start e seg with
  | zero => rfl
  | succ todo ih => simp only [segmentLoop, decb_congr h, ih]

end Sys2Proof.Machine
end

