-- ==== Sys2Proof/Laws/PerInstr.lean ====
section
/-! SUPPORT. The per-instruction family EncodesLegally: the word of every instruction stands in the tables of
30_encoding.md R47, R48 and R43. -/

/-- The instruction's word is a legal one. -/
def Sys2Proof.Laws.EncodesLegally.Statement (i : Sys2Proof.Instr) : Prop := (Sys2Proof.encode i).wf = true

namespace Sys2Proof.Laws.EncodesLegally

theorem encU16 : Statement .encU16 := rfl
theorem encU32 : Statement .encU32 := rfl
theorem encU64 : Statement .encU64 := rfl
theorem encIp4 : Statement .encIp4 := rfl
theorem encIp6 : Statement .encIp6 := rfl
theorem decU16 : Statement .decU16 := rfl
theorem decU32 : Statement .decU32 := rfl
theorem decU64 : Statement .decU64 := rfl
theorem decIp4 : Statement .decIp4 := rfl
theorem decIp6 : Statement .decIp6 := rfl
theorem decx16 : Statement .decx16 := rfl
theorem decx32 : Statement .decx32 := rfl
theorem decx64 : Statement .decx64 := rfl
theorem decb16 (start : Nat) : Statement (.decb16 start) := rfl
theorem decb32 (start : Nat) : Statement (.decb32 start) := rfl
theorem decb64 (start : Nat) : Statement (.decb64 start) := rfl
theorem sylenc (v : Chunk) : Statement (.sylenc v) := rfl

end Sys2Proof.Laws.EncodesLegally
end

