-- ==== Sys2Proof/Laws/Step.lean ====
section
/-! SUPPORT. What an instruction can do to the state, said once per shared operation: if it answers a next state,
then one of these. -/

namespace Sys2Proof.Machine

/-- A decode of the exact-width kind that answers a next state has set the engine's registers and Completed. -/
theorem runDecode_next {n : Width} {s t : State} (h : runDecode n s = .next t) :
    ∃ e r, decx n s = .ok (e, r) ∧
      ((∃ v k, r = .ok v k ∧ t = complete statusOk (v.setWidth 128) 0 (s.withEngine e)) ∨
       (∃ k, r = .err k ∧ t = complete k.code 0 0 (s.withEngine e))) := by
  unfold runDecode at h
  split at h
  · rename_i e v k hd; cases h; exact ⟨e, _, hd, .inl ⟨v, k, rfl, rfl⟩⟩
  · rename_i e k hd; cases h; exact ⟨e, _, hd, .inr ⟨k, rfl, rfl⟩⟩
  · cases h

/-- DEC.IP6, for any resume skip, that answers a next state has set the engine's registers and SEG and Completed. -/
theorem runDecodeIp6_next {skip : Nat} {s t : State} (h : runDecodeIp6 skip s = .next t) :
    ∃ e seg r, segmentLoop skip s 8 0 s.engine s.seg = .ok (e, seg, r) ∧
      ((r = none ∧ t = complete statusOk (joinSegments seg) 0 { s.withEngine e with seg := seg }) ∨
       (∃ k, r = some k ∧ t = complete k.code 0 0 { s.withEngine e with seg := seg })) := by
  unfold runDecodeIp6 at h
  split at h
  · rename_i e seg hd; cases h; exact ⟨e, seg, _, hd, .inl ⟨rfl, rfl⟩⟩
  · rename_i e seg k hd; cases h; exact ⟨e, seg, _, hd, .inr ⟨k, rfl, rfl⟩⟩
  · cases h

/-- An exact-mode micro-command that answers a next state has set the engine's registers and returned a result. -/
theorem runExact_next {n : Width} {s t : State} (h : runExact n s = .next t) :
    ∃ e r, decx n s = .ok (e, r) ∧ t = { s.withEngine e with ret := some (.exact r) } := by
  unfold runExact at h
  split at h
  · rename_i e r hd; cases h; exact ⟨e, r, hd, rfl⟩
  · cases h

/-- A bounded-mode micro-command that answers a next state has set the engine's registers and returned a result. -/
theorem runBounded_next {n : Width} {start : Nat} {s t : State} (h : runBounded n start s = .next t) :
    ∃ e r, decb n start s = .ok (e, r) ∧ t = { s.withEngine e with ret := some (.bounded r) } := by
  unfold runBounded at h
  split at h
  · rename_i e r hd; cases h; exact ⟨e, r, hd, rfl⟩
  · cases h

/-- The only registers an instruction can write: the outputs, BUSY and DONE, the per-operation registers, and the
model's `ret`. -/
theorem exec_next {i : Instr} {s t : State} (h : exec i s = .next t) :
    t = { s with status := t.status, res := t.res, olen := t.olen, tob := t.tob, busy := t.busy, done := t.done,
                 w := t.w, acc := t.acc, bitcnt := t.bitcnt, cur := t.cur, seg := t.seg, ret := t.ret } := by
  have enc : ∀ {len : Nat} (v : BitVec len) (n : Nat), 1 ≤ n → n ≤ 8 → runEncode v n s = .next t →
      t = { s with status := t.status, res := t.res, olen := t.olen, tob := t.tob, busy := t.busy,
                   done := t.done, w := t.w, acc := t.acc, bitcnt := t.bitcnt, cur := t.cur, seg := t.seg,
                   ret := t.ret } := by
    intro len v n h1 hn h
    obtain ⟨t', ht, he, -⟩ := runEncode_spec v n s h1 hn
    rw [ht] at h; cases h
    rw [he.1]
  have dec : ∀ n, runDecode n s = .next t →
      t = { s with status := t.status, res := t.res, olen := t.olen, tob := t.tob, busy := t.busy,
                   done := t.done, w := t.w, acc := t.acc, bitcnt := t.bitcnt, cur := t.cur, seg := t.seg,
                   ret := t.ret } := by
    intro n h
    obtain ⟨e, r, -, ⟨v, k, -, rfl⟩ | ⟨k, -, rfl⟩⟩ := runDecode_next h <;> rfl
  cases i with
  | encU16 => exact enc _ 1 (by decide) (by decide) h
  | encU32 => exact enc _ 2 (by decide) (by decide) h
  | encU64 => exact enc _ 4 (by decide) (by decide) h
  | encIp4 => exact enc _ 2 (by decide) (by decide) h
  | encIp6 => exact enc _ 8 (by decide) (by decide) h
  | decU16 => exact dec .w16 h
  | decU32 => exact dec .w32 h
  | decU64 => exact dec .w64 h
  | decIp4 => exact dec .w32 h
  | decIp6 => obtain ⟨e, seg, r, -, ⟨-, rfl⟩ | ⟨k, -, rfl⟩⟩ := runDecodeIp6_next h <;> rfl
  | decx16 => obtain ⟨e, r, -, rfl⟩ := runExact_next (n := .w16) h; rfl
  | decx32 => obtain ⟨e, r, -, rfl⟩ := runExact_next (n := .w32) h; rfl
  | decx64 => obtain ⟨e, r, -, rfl⟩ := runExact_next (n := .w64) h; rfl
  | decb16 start => obtain ⟨e, r, -, rfl⟩ := runBounded_next (n := .w16) h; rfl
  | decb32 start => obtain ⟨e, r, -, rfl⟩ := runBounded_next (n := .w32) h; rfl
  | decb64 start => obtain ⟨e, r, -, rfl⟩ := runBounded_next (n := .w64) h; rfl
  | sylenc v => cases h; rfl

/-- What an instruction does to the outputs: an operation Completes; a procedure run alone leaves them as they are;
both keep the output buffer's form. -/
theorem exec_next_outputs {i : Instr} {s t : State} (h : exec i s = .next t) :
    (Memory.wf s.tob → Memory.wf t.tob) ∧ ((∀ x ∈ s.tob, x.1 < 47) → ∀ x ∈ t.tob, x.1 < 47) ∧
    (isOperation i = true → t.busy = false ∧ t.done = true) ∧
    (isOperation i = false → t.busy = s.busy ∧ t.done = s.done ∧ t.status = s.status ∧ t.res = s.res ∧
      t.olen = s.olen ∧ t.tob = s.tob) := by
  have enc : ∀ {len : Nat} (v : BitVec len) (n : Nat), 1 ≤ n → n ≤ 8 → runEncode v n s = .next t →
      (Memory.wf s.tob → Memory.wf t.tob) ∧ ((∀ x ∈ s.tob, x.1 < 47) → ∀ x ∈ t.tob, x.1 < 47) ∧
      t.busy = false ∧ t.done = true := by
    intro len v n h1 h8 h
    obtain ⟨t', ht, he, hw, hc⟩ := runEncode_spec v n s h1 h8
    rw [ht] at h; cases h
    refine ⟨hw, hc, ?_⟩
    rw [he.1]; exact ⟨rfl, rfl⟩
  have dec : ∀ n, runDecode n s = .next t → t.tob = s.tob ∧ t.busy = false ∧ t.done = true := by
    intro n h
    obtain ⟨e, r, -, ⟨v, k, -, rfl⟩ | ⟨k, -, rfl⟩⟩ := runDecode_next h <;> exact ⟨rfl, rfl, rfl⟩
  have op : ∀ {p : Prop}, isOperation i = true → (Memory.wf s.tob → Memory.wf t.tob) ∧
      ((∀ x ∈ s.tob, x.1 < 47) → ∀ x ∈ t.tob, x.1 < 47) ∧ t.busy = false ∧ t.done = true →
      (Memory.wf s.tob → Memory.wf t.tob) ∧ ((∀ x ∈ s.tob, x.1 < 47) → ∀ x ∈ t.tob, x.1 < 47) ∧
      (isOperation i = true → t.busy = false ∧ t.done = true) ∧ (isOperation i = false → p) :=
    fun ho h => ⟨h.1, h.2.1, fun _ => h.2.2, fun hf => by simp [ho] at hf⟩
  have keep : t.tob = s.tob → t.busy = false ∧ t.done = true →
      (Memory.wf s.tob → Memory.wf t.tob) ∧ ((∀ x ∈ s.tob, x.1 < 47) → ∀ x ∈ t.tob, x.1 < 47) ∧
      t.busy = false ∧ t.done = true := fun h hb => ⟨h ▸ id, h ▸ id, hb⟩
  cases i with
  | encU16 => exact op rfl (enc _ 1 (by decide) (by decide) h)
  | encU32 => exact op rfl (enc _ 2 (by decide) (by decide) h)
  | encU64 => exact op rfl (enc _ 4 (by decide) (by decide) h)
  | encIp4 => exact op rfl (enc _ 2 (by decide) (by decide) h)
  | encIp6 => exact op rfl (enc _ 8 (by decide) (by decide) h)
  | decU16 => exact op rfl (keep (dec .w16 h).1 (dec .w16 h).2)
  | decU32 => exact op rfl (keep (dec .w32 h).1 (dec .w32 h).2)
  | decU64 => exact op rfl (keep (dec .w64 h).1 (dec .w64 h).2)
  | decIp4 => exact op rfl (keep (dec .w32 h).1 (dec .w32 h).2)
  | decIp6 =>
    obtain ⟨e, seg, r, -, ⟨-, rfl⟩ | ⟨k, -, rfl⟩⟩ := runDecodeIp6_next h <;>
      exact ⟨id, id, fun _ => ⟨rfl, rfl⟩, fun hf => (by cases hf)⟩
  | decx16 =>
    obtain ⟨e, r, -, rfl⟩ := runExact_next (n := .w16) h
    exact ⟨id, id, fun hf => (by cases hf), fun _ => ⟨rfl, rfl, rfl, rfl, rfl, rfl⟩⟩
  | decx32 =>
    obtain ⟨e, r, -, rfl⟩ := runExact_next (n := .w32) h
    exact ⟨id, id, fun hf => (by cases hf), fun _ => ⟨rfl, rfl, rfl, rfl, rfl, rfl⟩⟩
  | decx64 =>
    obtain ⟨e, r, -, rfl⟩ := runExact_next (n := .w64) h
    exact ⟨id, id, fun hf => (by cases hf), fun _ => ⟨rfl, rfl, rfl, rfl, rfl, rfl⟩⟩
  | decb16 start =>
    obtain ⟨e, r, -, rfl⟩ := runBounded_next (n := .w16) h
    exact ⟨id, id, fun hf => (by cases hf), fun _ => ⟨rfl, rfl, rfl, rfl, rfl, rfl⟩⟩
  | decb32 start =>
    obtain ⟨e, r, -, rfl⟩ := runBounded_next (n := .w32) h
    exact ⟨id, id, fun hf => (by cases hf), fun _ => ⟨rfl, rfl, rfl, rfl, rfl, rfl⟩⟩
  | decb64 start =>
    obtain ⟨e, r, -, rfl⟩ := runBounded_next (n := .w64) h
    exact ⟨id, id, fun hf => (by cases hf), fun _ => ⟨rfl, rfl, rfl, rfl, rfl, rfl⟩⟩
  | sylenc v => cases h; exact ⟨id, id, fun hf => (by cases hf), fun _ => ⟨rfl, rfl, rfl, rfl, rfl, rfl⟩⟩

/-- What OP selects is one of the ten operations (30_encoding.md R47). -/
theorem decodeCmd_isOperation {op : BitVec 4} {i : Instr} (h : decode (.cmd op) = .ok i) : isOperation i = true := by
  simp only [decode, decodeCmd] at h
  split at h <;> cases h <;> rfl

/-- An operation's Start finds nothing missing exactly when its inputs have been written (R94). -/
theorem missingInput_none_iff {i : Instr} {s : State} (hi : isOperation i = true) (ho : s.written.op = true) :
    missingInput i s = none ↔ s.inputsWritten i := by
  have ht : missingText s = none ↔ s.written.tlen = true ∧ s.readable := by
    unfold missingText
    split <;> simp_all [firstUnwritten_none_iff, State.readable]
  have hp : missingOperand s = none ↔ s.written.opa = true := by
    unfold missingOperand
    split <;> simp_all
  cases i <;> first | (cases hi; done) | simp [missingInput, State.inputsWritten, readsText, ho, ht, hp]

/-- A Start with BUSY = 0 and a legal OP stops on the input it finds unwritten. -/
theorem hostStart_missing {s : State} {i : Instr} {f : Fault} (hb : s.busy = false) (ho : s.written.op = true)
    (hd : decode (.cmd s.op) = .ok i) (hm : missingInput i s = some f) : hostStart s = .fault f := by
  simp [hostStart, hb, hd, ho, hm]

/-- A Start with BUSY = 0, a legal OP and its inputs written is accepted. -/
theorem hostStart_accepts {s : State} {i : Instr} (hb : s.busy = false) (hd : decode (.cmd s.op) = .ok i)
    (hw : s.inputsWritten i) : hostStart s = .next (accept s) := by
  have hm := (missingInput_none_iff (decodeCmd_isOperation hd) hw.1).2 hw
  simp [hostStart, hb, hd, hw.1, hm]

/-- A Start that is accepted: the block was idle, OP legal and the operation's inputs written (R93, R94). -/
theorem hostStart_next {s t : State} (h : hostStart s = .next t) :
    s.busy = false ∧ t = accept s ∧ ∃ i, decode (.cmd s.op) = .ok i ∧ s.inputsWritten i := by
  unfold hostStart at h
  split at h
  · cases h
  · rename_i hb
    split at h
    · rename_i ho
      split at h
      · rename_i i hd
        split at h
        · rename_i hm
          cases h
          exact ⟨by simpa using hb, rfl, i, hd, (missingInput_none_iff (decodeCmd_isOperation hd) ho).1 hm⟩
        · cases h
      · cases h
    · cases h

@[simp] theorem perform_execute (i : Instr) (s : State) : perform (.execute i s) = exec i s := rfl

@[simp] theorem perform_finish (o : Host.Outcome State Fault Refusal) : perform (.finish o) = o := rfl

/-- A step with nothing pending is the block's turn. -/
theorem step_nil {s : State} (h : s.pending = []) : step s = perform (blockTurn s) := by
  simp [step, nextAction, h]

/-- A step with a move pending makes that move. -/
theorem step_cons {s : State} {m : Move} {rest : List Move} (h : s.pending = m :: rest) :
    step s = perform (moveAction m { s with pending := rest }) := by
  simp [step, nextAction, h]

end Sys2Proof.Machine
end

