-- ==== Sys2Proof/Tests/Slice0.lean ====
section
/-! SUPPORT. The model's own tests, their expected results from spec/95_test_vectors.md and the encoding tables of
spec/30_encoding.md, and a witness for every hypothesis of an obligation. -/

open Sys2Proof Sys2Proof.Machine

set_option maxRecDepth 8000

namespace Sys2Proof.Tests

/-! ### Well-formedness: each check refuses an ill-formed word (R50, R48) -/

theorem test_wf_refuses_reserved_type :
    (CodeWord.cmd 0b0101).wf = false ∧ (CodeWord.cmd 0b0111).wf = false ∧ (CodeWord.cmd 0b1111).wf = false := by decide

theorem test_wf_refuses_reserved_width :
    (CodeWord.ecmd 0b011 0).wf = false ∧ (CodeWord.ecmd 0b111 0).wf = false := by decide

theorem test_wf_refuses_start_on_exact : (CodeWord.ecmd 0b000 7).wf = false := by decide

theorem test_wf_accepts_legal :
    (CodeWord.cmd 0b1100).wf = true ∧ (CodeWord.ecmd 0b110 7).wf = true ∧ (CodeWord.syl 0xFFFF).wf = true := by decide

/-! ### Decoding: one word per constructor, from the tables of R47, R48, R43 -/

theorem test_decode_encU16 : decode (.cmd 0b0000) = .ok .encU16 := rfl
theorem test_decode_encU32 : decode (.cmd 0b0001) = .ok .encU32 := rfl
theorem test_decode_encU64 : decode (.cmd 0b0010) = .ok .encU64 := rfl
theorem test_decode_encIp4 : decode (.cmd 0b0011) = .ok .encIp4 := rfl
theorem test_decode_encIp6 : decode (.cmd 0b0100) = .ok .encIp6 := rfl
theorem test_decode_decU16 : decode (.cmd 0b1000) = .ok .decU16 := rfl
theorem test_decode_decU32 : decode (.cmd 0b1001) = .ok .decU32 := rfl
theorem test_decode_decU64 : decode (.cmd 0b1010) = .ok .decU64 := rfl
theorem test_decode_decIp4 : decode (.cmd 0b1011) = .ok .decIp4 := rfl
theorem test_decode_decIp6 : decode (.cmd 0b1100) = .ok .decIp6 := rfl
theorem test_decode_decx16 : decode (.ecmd 0b000 0) = .ok .decx16 := rfl
theorem test_decode_decx32 : decode (.ecmd 0b001 0) = .ok .decx32 := rfl
theorem test_decode_decx64 : decode (.ecmd 0b010 0) = .ok .decx64 := rfl
theorem test_decode_decb16 : decode (.ecmd 0b100 5) = .ok (.decb16 5) := rfl
theorem test_decode_decb32 : decode (.ecmd 0b101 11) = .ok (.decb32 11) := rfl
theorem test_decode_decb64 : decode (.ecmd 0b110 0) = .ok (.decb64 0) := rfl
theorem test_decode_sylenc : decode (.syl 0b0001001000110100) = .ok (.sylenc 0x1234) := rfl

theorem test_decode_rejects_by_name :
    decode (.cmd 0b0101) = .error .reservedType ∧ decode (.cmd 0b1111) = .error .reservedType ∧
    decode (.ecmd 0b011 0) = .error .reservedWidth ∧ decode (.ecmd 0b111 4) = .error .reservedWidth ∧
    decode (.ecmd 0b001 1) = .error .startOnExact := ⟨rfl, rfl, rfl, rfl, rfl⟩

/-- The opcode table's words (log 17): CMD in a byte, ECMD with the reader's 17-bit row, SYL in two bytes. -/
theorem test_table_words :
    decodeTableWord 8 0x0 = some .encU16 ∧ decodeTableWord 8 0xC = some .decIp6 ∧ decodeTableWord 8 0x6 = some (.decb64 0) ∧
    decodeTableWord 24 0x10000 = some .decx16 ∧ decodeTableWord 24 0x4 = some (.decb16 0) ∧
    decodeTableWord 16 0x7F00 = some (.sylenc 0x7F00) ∧ decodeTableWord 8 0xD = none ∧ decodeTableWord 24 0x3 = none :=
  ⟨rfl, rfl, rfl, rfl, rfl, rfl, rfl, rfl⟩

/-- A presented word is what the very next step runs, from reset (log 18). -/
theorem test_withFetchWord :
    step (State.reset.withFetchWord 8 0xA) = exec .decU64
      { State.reset with op := 0xA, busy := true, written := ⟨true, true, true⟩ } ∧
    step (State.reset.withFetchWord 24 0x10004) = exec (.decb16 0) State.reset ∧
    step (State.reset.withFetchWord 16 0x7F00) = exec (.sylenc 0x7F00) State.reset := ⟨rfl, rfl, rfl⟩

/-! ### One step on a small state -/

/-- The reset state with a text in TIB and TLEN. -/
def withText (cs : List Byte) : State :=
  { State.reset with tlen := cs.length, tib := cs.mapIdx (fun i c => (i, c)) }

/-- The reset state with an operand in OPA. -/
def withOperand (v : Value) : State := { State.reset with opa := v }

/-- A property of the next state, false of a stop. -/
def nextHas (p : State → Bool) : Host.Outcome State Fault Refusal → Bool
  | .next t => p t
  | .fault _ => false
  | .refused _ => false

theorem exists_of_nextHas {p : State → Bool} {o : Host.Outcome State Fault Refusal} (h : nextHas p o = true) :
    ∃ t, o = .next t ∧ p t = true := by
  cases o with
  | next t => exact ⟨t, rfl, h⟩
  | fault f => cases h
  | refused r => cases h

/-- A decode of a text ends idle and done with this STATUS and RES, and OLEN = 0. -/
def decodes (i : Instr) (cs : List Byte) (st : BitVec 2) (v : Value) : Bool :=
  nextHas (fun t => t.status = st ∧ t.res = v ∧ t.olen = 0 ∧ t.busy = false ∧ t.done = true) (exec i (withText cs))

/-- An encode of an operand ends idle and done with STATUS = OK, RES = 0 and exactly this text in TOB. -/
def encodes (i : Instr) (v : Value) (cs : List Byte) : Bool :=
  nextHas (fun t => t.status = 0 ∧ t.res = 0 ∧ t.olen.toNat = cs.length ∧ t.tob = cs.mapIdx (fun i c => (i, c)) ∧
    t.busy = false ∧ t.done = true) (exec i (withOperand v))

/-- A procedure run alone returns this. -/
def returns (i : Instr) (cs : List Byte) (r : Ret) : Bool := nextHas (fun t => t.ret = some r) (exec i (withText cs))

/-- 95_test_vectors.md 2.1, 0x1234; OPA[127:16] ignored (R67): `damuh`. -/
theorem test_encU16 :
    encodes .encU16 0xFFFF1234
      [0x64, 0x61, 0x6D, 0x75, 0x68] = true := by decide
/-- 95_test_vectors.md 2.1: `pozat`. -/
theorem test_encU16_mixed :
    encodes .encU16 0xABCD
      [0x70, 0x6F, 0x7A, 0x61, 0x74] = true := by decide
/-- 95_test_vectors.md S3: `rotab-vinat`. -/
theorem test_encU32 :
    encodes .encU32 0xBB40E64D
      [0x72, 0x6F, 0x74, 0x61, 0x62, 0x2D, 0x76, 0x69, 0x6E, 0x61, 0x74] = true := by decide
/-- 95_test_vectors.md 2.3; OPA[127:32] ignored: `babad-babab`. -/
theorem test_encU32_half_first :
    encodes .encU32 0xF00010000
      [0x62, 0x61, 0x62, 0x61, 0x64, 0x2D, 0x62, 0x61, 0x62, 0x61, 0x62] = true := by decide
/-- 95_test_vectors.md 2.3: `bahog-hijol-mokor-suloz`. -/
theorem test_encU64 :
    encodes .encU64 0x0123456789ABCDEF
      [0x62, 0x61, 0x68, 0x6F, 0x67, 0x2D, 0x68, 0x69, 0x6A, 0x6F, 0x6C, 0x2D, 0x6D, 0x6F, 0x6B, 0x6F, 0x72, 0x2D,
        0x73, 0x75, 0x6C, 0x6F, 0x7A] = true := by decide
/-- 95_test_vectors.md S5: `gutih-tugad`. -/
theorem test_encIp4 :
    encodes .encIp4 0x3F54DCC1
      [0x67, 0x75, 0x74, 0x69, 0x68, 0x2D, 0x74, 0x75, 0x67, 0x61, 0x64] = true := by decide
/-- 95_test_vectors.md 2.4: `mudof-sakat`. -/
theorem test_encIp4_octets :
    encodes .encIp4 0x8C62C18D
      [0x6D, 0x75, 0x64, 0x6F, 0x66, 0x2D, 0x73, 0x61, 0x6B, 0x61, 0x74] = true := by decide
/-- 95_test_vectors.md 2.6: `zupab-babab-babab-babab-bamaf-razuz-zumiv-mason`. -/
theorem test_encIp6 :
    encodes .encIp6 0xFE800000000000000202B3FFFE1E8329
      [0x7A, 0x75, 0x70, 0x61, 0x62, 0x2D, 0x62, 0x61, 0x62, 0x61, 0x62, 0x2D, 0x62, 0x61, 0x62, 0x61, 0x62, 0x2D,
        0x62, 0x61, 0x62, 0x61, 0x62, 0x2D, 0x62, 0x61, 0x6D, 0x61, 0x66, 0x2D, 0x72, 0x61, 0x7A, 0x75, 0x7A, 0x2D,
        0x7A, 0x75, 0x6D, 0x69, 0x76, 0x2D, 0x6D, 0x61, 0x73, 0x6F, 0x6E] = true := by decide
/-- 95_test_vectors.md 2.2; bytes above 0x7F are others. -/
theorem test_decU16 :
    decodes .decU16
      [0x6C, 0x75, 0x73, 0xC3, 0xA9, 0x61, 0x62]
      0 0x7F00 = true := by decide
/-- 95_test_vectors.md 2.2: `lusaba`. -/
theorem test_decU16_too_large :
    decodes .decU16
      [0x6C, 0x75, 0x73, 0x61, 0x62, 0x61]
      2 0 = true := by decide
/-- 95_test_vectors.md S9: `-lu-sab--babad-`. -/
theorem test_decU32 :
    decodes .decU32
      [0x2D, 0x6C, 0x75, 0x2D, 0x73, 0x61, 0x62, 0x2D, 0x2D, 0x62, 0x61, 0x62, 0x61, 0x64, 0x2D]
      0 0x7F000001 = true := by decide
/-- 95_test_vectors.md 2.3: `lusab`. -/
theorem test_decU32_too_small :
    decodes .decU32
      [0x6C, 0x75, 0x73, 0x61, 0x62]
      1 0 = true := by decide
/-- 95_test_vectors.md 2.3: `lusab-babad-rotab-vinat`. -/
theorem test_decU64 :
    decodes .decU64
      [0x6C, 0x75, 0x73, 0x61, 0x62, 0x2D, 0x62, 0x61, 0x62, 0x61, 0x64, 0x2D, 0x72, 0x6F, 0x74, 0x61, 0x62, 0x2D,
        0x76, 0x69, 0x6E, 0x61, 0x74]
      0 0x7F000001BB40E64D = true := by decide
/-- 95_test_vectors.md 2.3, 68 bits: `lusab-babad-lusab-babad-b`. -/
theorem test_decU64_overflow :
    decodes .decU64
      [0x6C, 0x75, 0x73, 0x61, 0x62, 0x2D, 0x62, 0x61, 0x62, 0x61, 0x64, 0x2D, 0x6C, 0x75, 0x73, 0x61, 0x62, 0x2D,
        0x62, 0x61, 0x62, 0x61, 0x64, 0x2D, 0x62]
      2 0 = true := by decide
/-- 95_test_vectors.md S5: `gutih-tugad`. -/
theorem test_decIp4 :
    decodes .decIp4
      [0x67, 0x75, 0x74, 0x69, 0x68, 0x2D, 0x74, 0x75, 0x67, 0x61, 0x64]
      0 0x3F54DCC1 = true := by decide
/-- 95_test_vectors.md 2.4: `lusab-babad-babab`. -/
theorem test_decIp4_too_large :
    decodes .decIp4
      [0x6C, 0x75, 0x73, 0x61, 0x62, 0x2D, 0x62, 0x61, 0x62, 0x61, 0x64, 0x2D, 0x62, 0x61, 0x62, 0x61, 0x62]
      2 0 = true := by decide
/-- 95_test_vectors.md 2.6: `zupab-babab-babab-babab-bamaf-razuz-zumiv-mason`. -/
theorem test_decIp6 :
    decodes .decIp6
      [0x7A, 0x75, 0x70, 0x61, 0x62, 0x2D, 0x62, 0x61, 0x62, 0x61, 0x62, 0x2D, 0x62, 0x61, 0x62, 0x61, 0x62, 0x2D,
        0x62, 0x61, 0x62, 0x61, 0x62, 0x2D, 0x62, 0x61, 0x6D, 0x61, 0x66, 0x2D, 0x72, 0x61, 0x7A, 0x75, 0x7A, 0x2D,
        0x7A, 0x75, 0x6D, 0x69, 0x76, 0x2D, 0x6D, 0x61, 0x73, 0x6F, 0x6E]
      0 0xFE800000000000000202B3FFFE1E8329 = true := by decide
/-- 95_test_vectors.md P4 step 1: `baaab-babab-babab-babab-babab-babab-babab-babad`. -/
theorem test_decIp6_invalid :
    decodes .decIp6
      [0x62, 0x61, 0x61, 0x61, 0x62, 0x2D, 0x62, 0x61, 0x62, 0x61, 0x62, 0x2D, 0x62, 0x61, 0x62, 0x61, 0x62, 0x2D,
        0x62, 0x61, 0x62, 0x61, 0x62, 0x2D, 0x62, 0x61, 0x62, 0x61, 0x62, 0x2D, 0x62, 0x61, 0x62, 0x61, 0x62, 0x2D,
        0x62, 0x61, 0x62, 0x61, 0x62, 0x2D, 0x62, 0x61, 0x62, 0x61, 0x64]
      3 0 = true := by decide
/-- 95_test_vectors.md 2.2, four consonants: `bbbb`. -/
theorem test_decx16 :
    returns .decx16
      [0x62, 0x62, 0x62, 0x62]
      (.exact (.ok 0 16)) = true := by decide
/-- 95_test_vectors.md 2.2, 160 bits: 40 times `z`. -/
theorem test_decx16_saturates :
    returns .decx16
      (List.replicate 40 0x7A)
      (.exact (.err .inputTooLarge)) = true := by decide
/-- 95_test_vectors.md S2: `lusab-babad`. -/
theorem test_decx32 :
    returns .decx32
      [0x6C, 0x75, 0x73, 0x61, 0x62, 0x2D, 0x62, 0x61, 0x62, 0x61, 0x64]
      (.exact (.ok 0x7F000001 32)) = true := by decide
/-- 95_test_vectors.md S2's step trace: ACC, BITCNT and CUR at its end. -/
theorem test_decx32_registers :
    nextHas (fun t => t.acc = 0x7F000001 ∧ t.bitcnt = 32 ∧ t.cur = 11)
      (exec .decx32 (withText [0x6C, 0x75, 0x73, 0x61, 0x62, 0x2D, 0x62, 0x61, 0x62, 0x61, 0x64])) = true := by decide
/-- 95_test_vectors.md 2.3: 16 times `z`. -/
theorem test_decx64 :
    returns .decx64
      (List.replicate 16 0x7A)
      (.exact (.ok 0xFFFFFFFFFFFFFFFF 64)) = true := by decide
/-- 95_test_vectors.md 2.5, leading separator skipped: `lusab-babad`. -/
theorem test_decb16 :
    returns (.decb16 5)
      [0x6C, 0x75, 0x73, 0x61, 0x62, 0x2D, 0x62, 0x61, 0x62, 0x61, 0x64]
      (.bounded (.ok 1 16 10)) = true := by decide
/-- 95_test_vectors.md 2.5: `lusaa b`. -/
theorem test_decb16_invalid :
    returns (.decb16 0)
      [0x6C, 0x75, 0x73, 0x61, 0x61, 0x20, 0x62]
      (.bounded (.err .inputInvalid)) = true := by decide
/-- 95_test_vectors.md 2.5: `lusab-babad`. -/
theorem test_decb32 :
    returns (.decb32 0)
      [0x6C, 0x75, 0x73, 0x61, 0x62, 0x2D, 0x62, 0x61, 0x62, 0x61, 0x64]
      (.bounded (.ok 0x7F000001 32 10)) = true := by decide
/-- 95_test_vectors.md 2.5 (start > TLEN), with N = 32: `lusab-babad`. -/
theorem test_decb32_start_past_end :
    returns (.decb32 12)
      [0x6C, 0x75, 0x73, 0x61, 0x62, 0x2D, 0x62, 0x61, 0x62, 0x61, 0x64]
      (.bounded (.err .inputTooSmall)) = true := by decide
/-- 95_test_vectors.md 2.3's sixteen z; by R60 the scan stops at the sixteenth: 17 times `z`. -/
theorem test_decb64 :
    returns (.decb64 0)
      (List.replicate 17 0x7A)
      (.bounded (.ok 0xFFFFFFFFFFFFFFFF 64 15)) = true := by decide
/-- 95_test_vectors.md 2.1. -/
theorem test_sylenc :
    returns (.sylenc 0x7F00)
      []
      (.syllable [0x6C, 0x75, 0x73, 0x61, 0x62]) = true := by decide
/-- 95_test_vectors.md 2.1: W ends at 0 (the working-register trace). -/
theorem test_sylenc_w : nextHas (fun t => t.w = 0) (exec (.sylenc 0x7F00) { State.reset with w := 0x55 }) = true := by decide

/-- P3, R79: the eight segments in SEG, and the cursor where the last call ended. -/
theorem test_decIp6_segments :
    nextHas (fun t => t.seg = #v[0x2001, 0x0DB8, 0, 0, 0, 0, 0, 1] ∧ t.cur = 46) (exec .decIp6 (withText
      [0x66, 0x61, 0x62, 0x61, 0x64, 0x2D, 0x62, 0x75, 0x6B, 0x75, 0x6D, 0x2D, 0x62, 0x61, 0x62, 0x61, 0x62, 0x2D,
        0x62, 0x61, 0x62, 0x61, 0x62, 0x2D, 0x62, 0x61, 0x62, 0x61, 0x62, 0x2D, 0x62, 0x61, 0x62, 0x61, 0x62, 0x2D,
        0x62, 0x61, 0x62, 0x61, 0x62, 0x2D, 0x62, 0x61, 0x62, 0x61, 0x64])) = true := by decide

/-! ### Witnesses: states and operands that meet an obligation's hypotheses, clause by clause -/

/-- A host that has written OP, OPA, TLEN and a text. -/
def ready (op : BitVec 4) (cs : List Byte) : State := { withText cs with op := op, written := ⟨true, true, true⟩ }

/-- An accepted operation about to run. -/
def running (op : BitVec 4) (cs : List Byte) : State := { ready op cs with busy := true }

/-- A text every cell of which is written: the hypothesis of ExactProcedureResult, BoundedProcedureResult,
EngineHoldsExactlyTheBits, OperationsArePureFunctions (its first clause) and the five Decode…Result. -/
theorem witness_readable : (withText [0x6C, 0x75, 0x73, 0x61, 0x62]).readable := by decide

/-- The empty text, for the same statements. -/
theorem witness_readable_empty : State.reset.readable := by decide

theorem witness_ReservedWordsAreRejected :
    5 ≤ (0b0101 : BitVec 4).toNat % 8 ∧ 5 ≤ (0b1111 : BitVec 4).toNat % 8 ∧
    (0b011 : BitVec 3).toNat % 4 = 3 ∧ (0b111 : BitVec 3).toNat % 4 = 3 := by decide

theorem witness_DecodeAndEncodeAgree : decode (.ecmd 0b110 1000) = .ok (.decb64 1000) := rfl

theorem witness_StartIsAcceptedWhenIdle :
    (∃ s : State, s.pending = .start :: [] ∧ s.busy = false ∧ decode (.cmd s.op) = .ok .decIp6 ∧
      s.inputsWritten .decIp6) ∧
    ∃ s : State, s.pending = .start :: [] ∧ s.busy = false ∧ decode (.cmd s.op) = .ok .encU16 ∧
      s.inputsWritten .encU16 :=
  ⟨⟨{ ready 0xC [0x6C] with pending := [.start] }, rfl, rfl, rfl, rfl, fun _ => ⟨rfl, by decide⟩, nofun⟩,
    ⟨{ ready 0 [] with pending := [.start] }, rfl, rfl, rfl, rfl, nofun, fun _ => rfl⟩⟩

theorem witness_StartAtTheWrongTimeIsRefused :
    (∃ s : State, s.pending = .start :: [] ∧ s.busy = true) ∧
    (∃ s : State, s.pending = .start :: [] ∧ s.busy = false ∧ s.written.op = true ∧ s.op = 5 ∧ 5 ≤ s.op.toNat % 8) ∧
    ∃ s : State, s.pending = .start :: [] ∧ s.busy = false ∧ s.written.op = true ∧ s.op = 15 ∧ 5 ≤ s.op.toNat % 8 :=
  ⟨⟨{ State.reset with busy := true, pending := [.start] }, rfl, rfl⟩,
    ⟨{ ready 5 [] with pending := [.start] }, rfl, rfl, rfl, rfl, by decide⟩,
    ⟨{ ready 15 [] with pending := [.start] }, rfl, rfl, rfl, rfl, by decide⟩⟩

theorem witness_StepRunsTheSelectedOperation :
    (∃ s : State, s.busy = true ∧ s.spoiled = false ∧ decode (.cmd s.op) = .ok .decIp6 ∧ s.pending = []) ∧
    ∃ s : State, s.busy = true ∧ s.spoiled = false ∧ decode (.cmd s.op) = .ok .encU16 ∧ s.pending = .run :: [] :=
  ⟨⟨running 0xC [], rfl, rfl, rfl, rfl⟩, ⟨{ running 0 [] with pending := [.run] }, rfl, rfl, rfl, rfl⟩⟩

theorem witness_StepRunsTheProcedures :
    (∃ s : State, s.pending = .engine 0b110 5 :: [] ∧ decode (.ecmd 0b110 5) = .ok (.decb64 5)) ∧
    ∃ s : State, s.pending = .syllable 0xFFFF :: [] :=
  ⟨⟨{ State.reset with pending := [.engine 0b110 5] }, rfl, rfl⟩,
    ⟨{ State.reset with pending := [.syllable 0xFFFF] }, rfl⟩⟩

theorem witness_IdleBlockWaits : State.reset.busy = false ∧ State.reset.pending = [] := ⟨rfl, rfl⟩

theorem witness_HostWritesAnInput :
    (∃ s : State, s.busy = false ∧ s.pending = .writeOp 15 :: []) ∧
    (∃ s : State, s.busy = false ∧ s.pending = .writeOpa (BitVec.allOnes 128) :: []) ∧
    (∃ s : State, s.busy = false ∧ s.pending = .writeTlen 0 :: []) ∧
    ∃ s : State, s.busy = false ∧ s.pending = .writeTib 1000000 0xFF :: [] :=
  ⟨⟨{ State.reset with pending := [.writeOp 15] }, rfl, rfl⟩,
    ⟨{ State.reset with pending := [.writeOpa (BitVec.allOnes 128)] }, rfl, rfl⟩,
    ⟨{ State.reset with pending := [.writeTlen 0] }, rfl, rfl⟩,
    ⟨{ State.reset with pending := [.writeTib 1000000 0xFF] }, rfl, rfl⟩⟩

theorem witness_WritesWhileBusySpoilOnlyTheOperation :
    (∃ s : State, s.busy = true ∧ s.pending = .writeOp 15 :: []) ∧
    (∃ s : State, s.busy = true ∧ s.pending = .writeOpa 1 :: []) ∧
    (∃ s : State, s.busy = true ∧ s.pending = .writeTlen 0 :: []) ∧
    (∃ s : State, s.busy = true ∧ s.pending = .writeTib 0 0 :: []) ∧
    (∃ s : State, s.busy = true ∧ s.spoiled = true ∧ s.pending = []) ∧
    ∃ s : State, s.busy = true ∧ s.spoiled = true ∧ s.pending = .run :: [] :=
  ⟨⟨{ running 8 [] with pending := [.writeOp 15] }, rfl, rfl⟩,
    ⟨{ running 8 [] with pending := [.writeOpa 1] }, rfl, rfl⟩,
    ⟨{ running 8 [] with pending := [.writeTlen 0] }, rfl, rfl⟩,
    ⟨{ running 8 [] with pending := [.writeTib 0 0] }, rfl, rfl⟩,
    ⟨{ running 8 [] with spoiled := true }, rfl, rfl, rfl⟩,
    ⟨{ running 8 [] with spoiled := true, pending := [.run] }, rfl, rfl, rfl⟩⟩

/-- All 47 cells of TOB hold a value, and OLEN = 47. -/
def outputReady (p : OutPort) : State :=
  { State.reset with done := true, olen := 47, tob := (List.range 47).map (fun i => (i, 0x62)), pending := [.read p] }

theorem witness_HostReadsTheOutputs :
    (∃ s : State, s.done = true ∧ s.pending = .read .status :: []) ∧
    (∃ s : State, s.done = true ∧ s.pending = .read .res :: []) ∧
    (∃ s : State, s.done = true ∧ s.pending = .read .olen :: []) ∧
    (∃ s : State, s.done = true ∧ s.pending = .read (.tob 46) :: [] ∧ 46 < s.olen.toNat ∧
      Memory.read s.tob 46 = some 0x62) ∧
    (∃ s : State, s.pending = .read .busy :: []) ∧ ∃ s : State, s.pending = .read .done :: [] :=
  ⟨⟨outputReady .status, rfl, rfl⟩, ⟨outputReady .res, rfl, rfl⟩, ⟨outputReady .olen, rfl, rfl⟩,
    ⟨outputReady (.tob 46), rfl, rfl, by decide, by decide⟩, ⟨outputReady .busy, rfl⟩, ⟨outputReady .done, rfl⟩⟩

theorem witness_UnspecifiedReadsChangeNoRegister :
    (∃ (s : State) (p : OutPort), s.pending = .read p :: [] ∧ s.done = false ∧ p = .olen) ∧
    (∃ (s : State) (p : OutPort), s.pending = .read p :: [] ∧ p = .tob 46 ∧ s.done = false) ∧
    (∃ (s : State) (p : OutPort), s.pending = .read p :: [] ∧ p = .tob 5 ∧ s.done = true ∧ s.olen.toNat ≤ 5) ∧
    (∃ (s : State) (p : OutPort), s.pending = .read p :: [] ∧ p = .tob 4 ∧ s.done = true ∧ 4 < s.olen.toNat ∧
      Memory.read s.tob 4 = none) ∧
    ∃ (s : State) (p : OutPort), s.pending = .read p :: [] ∧ p = .tob 47 ∧ 47 ≤ 47 :=
  ⟨⟨{ State.reset with pending := [.read .olen] }, .olen, rfl, rfl, rfl⟩,
    ⟨{ outputReady (.tob 46) with done := false }, .tob 46, rfl, rfl, rfl⟩,
    ⟨{ outputReady (.tob 5) with olen := 5 }, .tob 5, rfl, rfl, rfl, by decide⟩,
    ⟨{ outputReady (.tob 4) with tob := [] }, .tob 4, rfl, rfl, rfl, by decide, rfl⟩,
    ⟨outputReady (.tob 47), .tob 47, rfl, rfl, by decide⟩⟩

theorem witness_ResetAbandonsTheOperation : ∃ s : State, s.pending = .reset :: [] ∧ s.busy = true :=
  ⟨{ running 8 [] with pending := [.reset] }, rfl, rfl⟩

/-- A running operation in a state that meets the invariant. -/
theorem running_inv (cs : List Byte) (h : Memory.wf (withText cs).tib) (hr : (running 8 cs).readable) :
    (running 8 cs).Inv :=
  ⟨h, List.Pairwise.nil, nofun, (fun h => nomatch h.2), fun _ _ => (by decide : typeLegal 8 = true),
    fun _ _ i hd => by
      obtain rfl : i = .decU16 := Except.ok.inj (hd.symm.trans (by decide : decode (.cmd 8) = .ok .decU16))
      exact ⟨rfl, fun _ => ⟨rfl, hr⟩, nofun⟩, nofun⟩

theorem witness_EveryStepKeepsTheInvariant : ∃ s t : State, s.Inv ∧ step s = .next t ∧ t.done = true := by
  obtain ⟨t, h, hd⟩ := exists_of_nextHas (p := fun t => t.done) (o := step (running 8 [0x6C])) (by decide)
  exact ⟨_, t, running_inv _ (by decide) (by decide), h, hd⟩

theorem witness_EveryAcceptedOperationCompletes :
    (∃ s : State, s.Inv ∧ s.busy = true ∧ s.spoiled = false ∧ s.pending = []) ∧
    (∃ s : State, s.Inv ∧ s.busy = true ∧ s.spoiled = true ∧ s.pending = []) ∧
    ∃ s : State, s.Inv ∧ s.busy = true ∧ s.spoiled = false ∧ s.pending = .run :: [] :=
  have h : (running 8 [0x6C]).Inv := running_inv _ (by decide) (by decide)
  ⟨⟨running 8 [0x6C], h, rfl, rfl, rfl⟩,
    ⟨{ running 8 [0x6C] with spoiled := true },
      ⟨h.tib_wf, h.tob_wf, h.tob_cells, h.not_busy_and_done, nofun, nofun, fun _ => rfl⟩, rfl, rfl, rfl⟩,
    ⟨{ running 8 [0x6C] with pending := [.run] },
      ⟨h.tib_wf, h.tob_wf, h.tob_cells, h.not_busy_and_done, h.busy_legal, h.busy_written, nofun⟩, rfl, rfl, rfl⟩⟩

theorem witness_OnlyAnUnwrittenCellStopsAnInstruction :
    exec .decU16 { State.reset with tlen := 1 } = .fault (.unwrittenCell 0) := rfl

theorem witness_OnlyTheHostWritesTheInputs :
    ∃ s t : State, step s = .next t ∧ (∀ m rest, s.pending = m :: rest → m.writesInputs = false) ∧ t.done = true := by
  obtain ⟨t, h, hd⟩ := exists_of_nextHas (p := fun t => t.done)
    (o := step { running 8 [0x6C] with pending := [.run] }) (by decide)
  refine ⟨_, t, h, ?_, hd⟩
  intro m rest h
  cases h
  rfl

theorem witness_OutputsHoldUntilTheNextStart :
    ∃ s t : State, s.busy = false ∧ step s = .next t ∧ (∀ m rest, s.pending = m :: rest → m.endsOutputs = false) ∧
      t.tlen = 3 := by
  refine ⟨{ outputReady .busy with pending := [.writeTlen 3] }, _, rfl, rfl, ?_, rfl⟩
  intro m rest h
  cases h
  rfl

theorem witness_OperationsArePureFunctions :
    (∃ s s' : State, s ≠ s' ∧ sameOperand .encU16 s s') ∧ (∃ s s' : State, s ≠ s' ∧ sameOperand .encU32 s s') ∧
    (∃ s s' : State, s ≠ s' ∧ sameOperand .encU64 s s') ∧ (∃ s s' : State, s ≠ s' ∧ sameOperand .encIp4 s s') ∧
    (∃ s s' : State, s ≠ s' ∧ sameOperand .encIp6 s s') ∧
    (∃ s s' : State, s ≠ s' ∧ s.readable ∧ sameText s s') ∧
    isOperation .encU16 = true ∧ isOperation .decIp6 = true := by
  refine ⟨⟨withOperand 1, withOperand 0x10001, by decide, by unfold sameOperand; decide⟩,
    ⟨withOperand 1, withOperand 0x100000001, by decide, by unfold sameOperand; decide⟩,
    ⟨withOperand 1, withOperand 0x10000000000000001, by decide, by unfold sameOperand; decide⟩,
    ⟨withOperand 1, withOperand 0x100000001, by decide, by unfold sameOperand; decide⟩,
    ⟨withOperand 1, { withOperand 1 with olen := 5 }, by decide, by unfold sameOperand; decide⟩,
    ⟨withText [0x6C], { withText [0x6C] with tib := [(0, 0x6C), (1, 0x75)] }, by decide, by decide, ?_⟩, rfl, rfl⟩
  exact ⟨rfl, by decide⟩

theorem witness_StatusCodesAreThoseOfTheTable :
    isOperation .decIp6 = true ∧ statusPossible .decIp6 3 = true ∧ statusPossible .decU16 2 = true := by decide

theorem witness_ErrorsExposeNoPartialValue :
    ∃ t, exec .decU16 (withText [0x6C, 0x75, 0x62]) = .next t ∧ t.status ≠ 0 := by
  obtain ⟨t, h, hd⟩ := exists_of_nextHas (p := fun t => t.status ≠ 0)
    (o := exec .decU16 (withText [0x6C, 0x75, 0x62])) (by decide)
  exact ⟨t, h, by simpa using hd⟩

theorem witness_ResultsFitTheirType :
    (∃ s t, exec .decU16 s = .next t) ∧ (∃ s t, exec .decU32 s = .next t) ∧ (∃ s t, exec .decU64 s = .next t) ∧
    (∃ s t, exec .decIp4 s = .next t) ∧ ∃ s t, exec .encIp6 s = .next t := by
  have h (i : Instr) (hi : nextHas (fun _ => true) (exec i State.reset) = true) : ∃ s t, exec i s = .next t := by
    obtain ⟨t, h, -⟩ := exists_of_nextHas hi
    exact ⟨_, t, h⟩
  exact ⟨h _ (by decide), h _ (by decide), h _ (by decide), h _ (by decide), h _ (by decide)⟩

theorem witness_CursorStaysInTheText : ∃ s t, exec (.decb16 9) s = .next t ∧ t.cur = s.tlen := by
  obtain ⟨t, h, hd⟩ := exists_of_nextHas (p := fun t => t.cur = 5)
    (o := exec (.decb16 9) (withText [0x6C, 0x75, 0x73, 0x61, 0x62])) (by decide)
  exact ⟨_, t, h, of_decide_eq_true hd⟩

theorem witness_TextAccessesReadAndWriteOneCell :
    (0 < (withText [0x6C]).tlen ∧ Memory.read (withText [0x6C]).tib 0 = some 0x6C) ∧ 46 < 47 := by decide

theorem witness_SyllablesAreABijection :
    ∃ s : State, s.tlen = 5 ∧ ∀ j < 5, Memory.read s.tib j = (sylencode 0x7F00).1[j]? :=
  ⟨withText [0x6C, 0x75, 0x73, 0x61, 0x62], by decide, by decide⟩

theorem witness_AccumulateStep :
    classify 0x7A = .cons 15 ∧ classify 0x75 = .vow 3 ∧ classify 0x2D = .other := by decide

theorem witness_EngineHoldsExactlyTheBits :
    (∃ s : State, s.readable ∧ textBits s.text = 64) ∧ ∃ s : State, s.readable ∧ 64 < textBits s.text :=
  ⟨⟨withText (List.replicate 16 0x7A), by decide, by decide⟩, ⟨withText (List.replicate 17 0x7A), by decide, by decide⟩⟩

/-- The three cases of exactEffect's comparison, at N = 16 (R59). -/
theorem witness_exactEffect :
    textBits (withText [0x6C, 0x75, 0x73, 0x61, 0x62]).text = 16 ∧
    textBits (withText [0x6C, 0x75, 0x73, 0x61]).text < 16 ∧
    16 < textBits (withText [0x6C, 0x75, 0x73, 0x61, 0x62, 0x61]).text := by decide

/-- The outcomes segmentsEffect tells apart (R79). -/
theorem witness_segmentsEffect :
    segmentsDecode 1 (List.replicate 32 0x62) 8 0 = ([0, 0, 0, 0, 0, 0, 0, 0], none) ∧
    segmentsDecode 1 [] 8 0 = ([], some .inputTooSmall) ∧
    segmentsDecode 1 [0x62, 0x62, 0x62, 0x64, 0x62, 0x61, 0x61, 0x61, 0x62, 0x62] 8 0 = ([1], some .inputInvalid) :=
  ⟨rfl, rfl, rfl⟩

/-- Both modes of the engine on one text return what is said. -/
theorem both_modes {cs : List Byte} {u r : Ret}
    (h : returns .decx16 cs u = true) (h' : returns (.decb16 0) cs r = true) :
    ∃ t v : State, exec (exactOf .w16) (withText cs) = .next t ∧ exec (boundedOf .w16 0) (withText cs) = .next v ∧
      t.ret = some u ∧ v.ret = some r := by
  obtain ⟨t, ht, e⟩ := exists_of_nextHas h
  obtain ⟨v, hv, e'⟩ := exists_of_nextHas h'
  exact ⟨t, v, ht, hv, of_decide_eq_true e, of_decide_eq_true e'⟩

/-- Clause 1: `lusab-`, nothing significant after cell 4. -/
theorem witness_TheTwoModesRelate_nothing_after :
    ∃ s t u : State, s.readable ∧ exec (exactOf .w16) s = .next t ∧ exec (boundedOf .w16 0) s = .next u ∧
      u.ret = some (.bounded (.ok 0x7F00 16 4)) ∧
      ∀ k c, 4 < k → s.text[k]? = some c → significant c = false := by
  obtain ⟨t, u, ht, hu, -, e⟩ := both_modes (cs := [0x6C, 0x75, 0x73, 0x61, 0x62, 0x2D])
    (u := .exact (.ok 0x7F00 16)) (r := .bounded (.ok 0x7F00 16 4)) (by decide) (by decide)
  refine ⟨_, t, u, by decide, ht, hu, e, fun k c hk hc => ?_⟩
  have hl : k < 6 := (List.getElem?_eq_some_iff.1 hc).1
  obtain rfl : k = 5 := by omega
  cases hc
  decide

/-- Clause 2: `lusabb`, a consonant after cell 4. -/
theorem witness_TheTwoModesRelate_more_after :
    ∃ s t u : State, s.readable ∧ exec (exactOf .w16) s = .next t ∧ exec (boundedOf .w16 0) s = .next u ∧
      u.ret = some (.bounded (.ok 0x7F00 16 4)) ∧ ∃ k c, 4 < k ∧ s.text[k]? = some c ∧ significant c = true := by
  obtain ⟨t, u, ht, hu, -, e⟩ := both_modes (cs := [0x6C, 0x75, 0x73, 0x61, 0x62, 0x62])
    (u := .exact (.err .inputTooLarge)) (r := .bounded (.ok 0x7F00 16 4)) (by decide) (by decide)
  exact ⟨_, t, u, by decide, ht, hu, e, 5, 0x62, by decide, rfl, by decide⟩

/-- Clause 3: `baaabb` straddles. -/
theorem witness_TheTwoModesRelate_invalid :
    ∃ s t u : State, s.readable ∧ exec (exactOf .w16) s = .next t ∧ exec (boundedOf .w16 0) s = .next u ∧
      u.ret = some (.bounded (.err .inputInvalid)) := by
  obtain ⟨t, u, ht, hu, -, e⟩ := both_modes (cs := [0x62, 0x61, 0x61, 0x61, 0x62, 0x62])
    (u := .exact (.err .inputTooLarge)) (r := .bounded (.err .inputInvalid)) (by decide) (by decide)
  exact ⟨_, t, u, by decide, ht, hu, e⟩

/-- Clause 4: `lusa` is too short. -/
theorem witness_TheTwoModesRelate_too_small :
    ∃ s t u : State, s.readable ∧ exec (exactOf .w16) s = .next t ∧ exec (boundedOf .w16 0) s = .next u ∧
      t.ret = some (.exact (.err .inputTooSmall)) ∧ u.ret = some (.bounded (.err .inputTooSmall)) := by
  obtain ⟨t, u, ht, hu, e, e'⟩ := both_modes (cs := [0x6C, 0x75, 0x73, 0x61])
    (u := .exact (.err .inputTooSmall)) (r := .bounded (.err .inputTooSmall)) (by decide) (by decide)
  exact ⟨_, t, u, by decide, ht, hu, e, e'⟩

/-- `lusab` and `-luSsab`. -/
theorem witness_OtherCharactersDoNotMatter :
    ∃ s s' : State, s.readable ∧ s'.readable ∧ s.text ≠ s'.text ∧
      s.text.filter significant = s'.text.filter significant ∧
      (s.text.drop 5).filter significant = (s'.text.drop 1000).filter significant ∧
      (s.text.drop 1).filter significant = (s'.text.drop 2).filter significant :=
  ⟨withText [0x6C, 0x75, 0x73, 0x61, 0x62], withText [0x2D, 0x6C, 0x75, 0x53, 0x73, 0x61, 0x62],
    by decide, by decide, by decide, by decide, by decide, by decide⟩

/-- Eight times `bbbb`, and one cell more that holds no value. -/
theorem witness_DecodeIp6IgnoresTrailingText :
    ∃ s s' t : State, s.tlen ≤ s'.tlen ∧ (∀ i < s.tlen, Memory.read s'.tib i = Memory.read s.tib i) ∧
      Memory.read s'.tib 32 = none ∧ s'.tlen = 33 ∧ exec .decIp6 s = .next t ∧ t.status = 0 := by
  obtain ⟨t, h, hd⟩ := exists_of_nextHas (p := fun t => t.status = 0)
    (o := exec .decIp6 (withText (List.replicate 32 0x62))) (by decide)
  exact ⟨withText (List.replicate 32 0x62), { withText (List.replicate 32 0x62) with tlen := 33 }, t, by decide,
    fun _ _ => rfl, by decide, rfl, h, of_decide_eq_true hd⟩

/-- Eight times `bbbb` with a separator after each: the eight ends of R81, and no significant character after the
first seven. -/
theorem witness_ResumeSkipDoesNotMatterAfterASeparator :
    ∃ s : State, s.readable ∧ segmentEnds 1 s.text 7 0 = [3, 8, 13, 18, 23, 28, 33] ∧
      ∀ idx ∈ segmentEnds 1 s.text 7 0, ∀ c, s.text[idx + 1]? = some c → significant c = false := by
  refine ⟨withText (List.replicate 8 [0x62, 0x62, 0x62, 0x62, 0x2D]).flatten, by decide, by decide, ?_⟩
  intro idx hi c hc
  have he : segmentEnds 1 (withText (List.replicate 8 [0x62, 0x62, 0x62, 0x62, 0x2D]).flatten).text 7 0 =
    [3, 8, 13, 18, 23, 28, 33] := by decide
  rw [he] at hi
  simp only [List.mem_cons, List.not_mem_nil, or_false] at hi
  obtain rfl | rfl | rfl | rfl | rfl | rfl | rfl := hi <;> (cases hc; decide)

/-- A decode whose host wrote `lusab` but for cell 3, and a Start of each kind with an input unwritten. -/
theorem witness_StartOnUnwrittenInputsFaults :
    (∃ s : State, s.pending = .start :: [] ∧ s.busy = false ∧ s.written.op = false) ∧
    (∃ s : State, s.pending = .start :: [] ∧ s.busy = false ∧ s.written.op = true ∧
      decode (.cmd s.op) = .ok .encIp6 ∧ s.written.opa = false) ∧
    (∃ s : State, s.pending = .start :: [] ∧ s.busy = false ∧ s.written.op = true ∧
      decode (.cmd s.op) = .ok .decU16 ∧ s.written.tlen = false) ∧
    ∃ s : State, s.pending = .start :: [] ∧ s.busy = false ∧ s.written.op = true ∧
      decode (.cmd s.op) = .ok .decU16 ∧ s.written.tlen = true ∧ 3 < s.tlen ∧ Memory.read s.tib 3 = none ∧
      ∀ j < 3, (Memory.read s.tib j).isSome :=
  ⟨⟨{ State.reset with pending := [.start] }, rfl, rfl, rfl⟩,
    ⟨{ State.reset with op := 4, written := ⟨true, false, true⟩, pending := [.start] }, rfl, rfl, rfl, rfl, rfl⟩,
    ⟨{ State.reset with op := 8, written := ⟨true, true, false⟩, pending := [.start] }, rfl, rfl, rfl, rfl, rfl⟩,
    ⟨{ ready 8 [0x6C, 0x75, 0x73] with tlen := 5, pending := [.start] },
      rfl, rfl, rfl, rfl, rfl, by decide, by decide, by decide⟩⟩

/-- Eight times `bbbb` of which the host wrote only the first four cells: TLEN = 32, cell 4 unwritten. -/
theorem witness_AnUnwrittenCellStopsWhatReadsIt :
    ∃ s : State, 4 < s.tlen ∧ Memory.read s.tib 4 = none ∧ (∀ j < 4, (Memory.read s.tib j).isSome) ∧
      boundedDecode 16 0 0 1 ((List.range' 1 (4 - 1)).filterMap (Memory.read s.tib)) = .err .inputTooSmall ∧
      boundedDecode 64 0 0 4 ((List.range' 4 (4 - 4)).filterMap (Memory.read s.tib)) = .err .inputTooSmall ∧
      (segmentsDecode 1 ((List.range 4).filterMap (Memory.read s.tib)) 8 0).2 = some .inputTooSmall :=
  ⟨{ withText [0x62, 0x62, 0x62, 0x62] with tlen := 32 }, by decide, by decide, by decide, by decide, by decide,
    by decide⟩

/-- U3 and log 4: DEC.IP6 stops at the unwritten cell 4; log 5: its Start already does. -/
theorem test_unwritten_cell :
    exec .decIp6 { withText [0x62, 0x62, 0x62, 0x62] with tlen := 32 } = .fault (.unwrittenCell 4) ∧
    step { ready 0xC [0x62, 0x62, 0x62, 0x62] with tlen := 32, pending := [.start] } = .fault (.unwrittenCell 4) :=
  ⟨rfl, rfl⟩

theorem witness_Ipv4AddressesRoundTrip :
    (∃ s : State, s.opa.extractLsb' 0 32 = 0x7F000001) ∧ (∃ s : State, s.opa.extractLsb' 0 32 = 0x3F54DCC1) ∧
    (∃ s : State, s.readable ∧ s.text = [0x6C, 0x75, 0x73, 0x61, 0x62, 0x2D, 0x62, 0x61, 0x62, 0x61, 0x64]) ∧
    ∃ s : State, s.readable ∧ s.text = [0x67, 0x75, 0x74, 0x69, 0x68, 0x2D, 0x74, 0x75, 0x67, 0x61, 0x64] :=
  ⟨⟨withOperand 0x7F000001, by decide⟩, ⟨withOperand 0x3F54DCC1, by decide⟩,
    ⟨withText [0x6C, 0x75, 0x73, 0x61, 0x62, 0x2D, 0x62, 0x61, 0x62, 0x61, 0x64], by decide, by decide⟩,
    ⟨withText [0x67, 0x75, 0x74, 0x69, 0x68, 0x2D, 0x74, 0x75, 0x67, 0x61, 0x64], by decide, by decide⟩⟩

end Sys2Proof.Tests
end

section
/-! SUPPORT. 00_scope.md R5: an operation is total on written text, and its outputs are a function of its operand. -/

namespace Sys2Proof.Machine

/-- What an encode of an n-chunk value gives the host: STATUS = OK, RES = 0, and the proquint in the 6n - 1 cells
below OLEN (R17 to R19, R44). -/
def encodeOutputs {len : Nat} (v : BitVec len) (n : Nat) : Outputs :=
  ⟨0, 0, BitVec.ofNat 6 (6 * n - 1), (List.range (6 * n - 1)).map fun i => some (proquintCell v n i)⟩

/-- The host sees of an encode's effect the outputs of the value alone. -/
theorem encodeEffect_outputs {len : Nat} {v : BitVec len} {n : Nat} {s t : State} (hn : n ≤ 8)
    (h : encodeEffect v n s t) : t.outputs = encodeOutputs v n := by
  obtain ⟨hregs, hcells⟩ := h
  have hstatus : t.status = 0 := by rw [hregs]
  have hres : t.res = 0 := by rw [hregs]
  have holen : t.olen = BitVec.ofNat 6 (6 * n - 1) := by rw [hregs]
  have hlen : t.olen.toNat = 6 * n - 1 := by rw [holen, BitVec.toNat_ofNat]; omega
  have htext : (List.range (6 * n - 1)).map (Memory.read t.tob) =
      (List.range (6 * n - 1)).map fun i => some (proquintCell v n i) :=
    List.map_congr_left fun i hi => by rw [hcells, if_pos (List.mem_range.1 hi)]
  rw [State.outputs, encodeOutputs, hstatus, hres, hlen, holen, htext]

/-- What an encode gives the host depends on the encoded value alone. -/
theorem runEncode_outputs {len : Nat} (v : BitVec len) {n : Nat} (s : State) (h1 : 1 ≤ n) (hn : n ≤ 8) :
    outcomeOutputs (runEncode v n s) = .next (encodeOutputs v n) := by
  obtain ⟨t, ht, heffect, -⟩ := runEncode_spec v n s h1 hn
  rw [ht, outcomeOutputs, encodeEffect_outputs hn heffect]

/-- The operand layouts of R45 read the low bits of OPA: equal low bits are an equal operand. -/
theorem extractLow_congr {len : Nat} {v v' : Value} (hlen : len ≤ 128) (h : v.setWidth len = v'.setWidth len) :
    v.extractLsb' 0 len = v'.extractLsb' 0 len := by
  rwa [← BitVec.setWidth_eq_extractLsb' hlen, ← BitVec.setWidth_eq_extractLsb' hlen]

/-- Two encodes of one value give the host the same outputs. -/
theorem runEncode_outputs_congr {len : Nat} {v v' : BitVec len} {n : Nat} (s s' : State) (h1 : 1 ≤ n) (hn : n ≤ 8)
    (hv : v = v') : outcomeOutputs (runEncode v n s) = outcomeOutputs (runEncode v' n s') := by
  rw [runEncode_outputs v s h1 hn, runEncode_outputs v' s' h1 hn, hv]

/-- Complete with OLEN = 0 shows the host no cell of TOB. -/
@[simp] theorem complete_outputs_of_noText (st : BitVec 2) (r : Value) (s : State) :
    (complete st r 0 s).outputs = ⟨st, r, 0, []⟩ := rfl

/-- What an exact-width decode gives the host depends on the text alone. -/
theorem runDecode_outputs_congr {s s' : State} (h : sameText s s') (n : Width) :
    outcomeOutputs (runDecode n s) = outcomeOutputs (runDecode n s') := by
  unfold runDecode
  rw [decx_congr h]
  match decx n s' with
  | .ok (e, .ok v k) => simp only [completeDecode_eq, outcomeOutputs, complete_outputs_of_noText]
  | .ok (e, .err k) => simp only [raiseErr_eq, outcomeOutputs, complete_outputs_of_noText]
  | .error f => rfl

/-- What DEC.IP6 gives the host depends on the text alone, not on the engine's registers or SEG before it (R11). -/
theorem runDecodeIp6_outputs_congr {s s' : State} (h : sameText s s') (skip : Nat) :
    outcomeOutputs (runDecodeIp6 skip s) = outcomeOutputs (runDecodeIp6 skip s') := by
  have hagree := segmentLoop_agree (s := s') skip 8 0 s.engine s'.engine s.seg s'.seg (Nat.le_refl 8)
    (fun _ _ hk => absurd hk (by omega))
  unfold runDecodeIp6
  rw [segmentLoop_congr h]
  generalize segmentLoop skip s' 8 0 s.engine s.seg = r at hagree ⊢
  generalize segmentLoop skip s' 8 0 s'.engine s'.seg = r' at hagree ⊢
  match r, r', hagree with
  | .ok (_, _, none), .ok (_, _, none), hseg =>
    simp only [completeDecode_eq, outcomeOutputs, complete_outputs_of_noText, hseg]
  | .ok (_, _, some _), .ok (_, _, some _), herr =>
    simp only [raiseErr_eq, outcomeOutputs, complete_outputs_of_noText, herr]
  | .error _, .error _, hfault => rw [hfault]

/-- An operation completes in every state whose text is written (R5 "total"). -/
theorem operation_completes {i : Instr} {s : State} (hi : isOperation i = true) (h : s.readable) :
    ∃ t, exec i s = .next t := by
  have enc {len : Nat} (v : BitVec len) (n : Nat) (h1 : 1 ≤ n) (hn : n ≤ 8) : ∃ t, runEncode v n s = .next t :=
    (runEncode_spec v n s h1 hn).imp fun _ ht => ht.1
  have dec (n : Width) : ∃ t, runDecode n s = .next t := (runDecode_spec h n).imp fun _ ht => ht.1
  cases i with
  | encU16 => exact enc _ 1 (by decide) (by decide)
  | encU32 => exact enc _ 2 (by decide) (by decide)
  | encU64 => exact enc _ 4 (by decide) (by decide)
  | encIp4 => exact enc _ 2 (by decide) (by decide)
  | encIp6 => exact enc _ 8 (by decide) (by decide)
  | decU16 => exact dec .w16
  | decU32 => exact dec .w32
  | decU64 => exact dec .w64
  | decIp4 => exact dec .w32
  | decIp6 => exact (runDecodeIp6_spec h resumeSkip).imp fun _ ht => ht.1
  | decx16 | decx32 | decx64 | decb16 | decb32 | decb64 | sylenc => cases hi

/-- What an operation gives the host, or the reason it stops, depends on its operand alone (R5). -/
theorem operation_outputs_congr {i : Instr} {s s' : State} (hi : isOperation i = true) (h : sameOperand i s s') :
    outcomeOutputs (exec i s) = outcomeOutputs (exec i s') := by
  cases i with
  | encU16 => exact runEncode_outputs_congr s s' (n := 1) (by decide) (by decide) (extractLow_congr (by decide) h)
  | encU32 => exact runEncode_outputs_congr s s' (n := 2) (by decide) (by decide) (extractLow_congr (by decide) h)
  | encU64 => exact runEncode_outputs_congr s s' (n := 4) (by decide) (by decide) (extractLow_congr (by decide) h)
  | encIp4 =>
    have hv : operandIp4 s = operandIp4 s' := by rw [operandIp4_eq, operandIp4_eq]; exact extractLow_congr (by decide) h
    exact runEncode_outputs_congr s s' (n := 2) (by decide) (by decide) hv
  | encIp6 =>
    have hv : operandIp6 s = operandIp6 s' := by rw [operandIp6_eq, operandIp6_eq]; exact h
    exact runEncode_outputs_congr s s' (n := 8) (by decide) (by decide) hv
  | decU16 => exact runDecode_outputs_congr h .w16
  | decU32 => exact runDecode_outputs_congr h .w32
  | decU64 => exact runDecode_outputs_congr h .w64
  | decIp4 => exact runDecode_outputs_congr h .w32
  | decIp6 => exact runDecodeIp6_outputs_congr h resumeSkip
  | decx16 | decx32 | decx64 | decb16 | decb32 | decb64 | sylenc => cases hi

/-- Settles O21: the operations complete on written text, and their outputs are a function of the operand. -/
theorem operationsArePureFunctions : Obligations.OperationsArePureFunctions :=
  ⟨fun _ _ hi h => operation_completes hi h, fun _ _ _ hi h => operation_outputs_congr hi h⟩

end Sys2Proof.Machine
end

section
/-! SUPPORT. The whole machine: what one step can do, said once (10_state.md R9, 70_reset_and_hazards.md R93), and from
it the invariant of the block and the frame of the input registers (R10). -/

namespace Sys2Proof.Machine

/-! ### What a step can do -/

/-- A step is the block's turn when no move is pending, and the first pending move otherwise. -/
theorem step_next {s t : State} (h : step s = .next t) :
    (s.pending = [] ∧ perform (blockTurn s) = .next t) ∨
    ∃ m rest, s.pending = m :: rest ∧ perform (moveAction m { s with pending := rest }) = .next t := by
  cases hp : s.pending with
  | nil => exact .inl ⟨rfl, step_nil hp ▸ h⟩
  | cons m rest => exact .inr ⟨m, rest, rfl, step_cons hp ▸ h⟩

@[simp] theorem blockTurn_of_idle {s : State} (h : s.busy = false) : blockTurn s = .finish (.next s) := by
  simp [blockTurn, h]

/-- The block's turn: idle it changes nothing; a spoiled operation Completes with free values; any other runs. -/
theorem blockTurn_next {s t : State} (h : perform (blockTurn s) = .next t) :
    (s.busy = false ∧ t = s) ∨ (s.spoiled = true ∧ t = completeSpoiled s) ∨
    (s.spoiled = false ∧ ∃ i, decode (.cmd s.op) = .ok i ∧ exec i s = .next t) := by
  cases hb : s.busy with
  | false =>
    rw [blockTurn_of_idle hb] at h
    cases h
    exact .inl ⟨rfl, rfl⟩
  | true =>
    cases hs : s.spoiled with
    | true =>
      simp only [blockTurn, hb, hs, if_true, perform_finish] at h
      cases h
      exact .inr (.inl ⟨rfl, rfl⟩)
    | false =>
      cases hd : decode (.cmd s.op) with
      | ok i => exact .inr (.inr ⟨rfl, i, rfl, by simpa [blockTurn, hb, hs, hd] using h⟩)
      | error e => simp [blockTurn, hb, hs, hd] at h

/-- What MODE and WSEL select is one of the six procedures, and no operation (30_encoding.md R48). -/
theorem decodeEcmd_isOperation {code : BitVec 3} {estart : Nat} {i : Instr}
    (h : decode (.ecmd code estart) = .ok i) : isOperation i = false := by
  simp only [decode, decodeEcmd] at h
  split at h
  case h_1 | h_2 | h_3 => split at h <;> cases h; rfl
  case h_4 | h_5 | h_6 => cases h; rfl
  case h_7 => cases h

/-- The mux's engine move that answers a next state ran a procedure. -/
theorem muxEngine_next {code : BitVec 3} {estart : Nat} {s t : State}
    (h : perform (muxEngine code estart s) = .next t) : ∃ i, isOperation i = false ∧ exec i s = .next t := by
  unfold muxEngine at h
  split at h
  · rename_i i hd; exact ⟨i, decodeEcmd_isOperation hd, h⟩
  · cases h

/-- A host read changes what it delivers and the count of free values, and nothing else (R96). -/
theorem hostReadValue_eq (p : OutPort) (s : State) :
    ∃ v n, hostReadValue p s = { s with hostData := v, free := n } := by
  unfold hostReadValue
  split
  · exact ⟨_, s.free, rfl⟩
  · exact ⟨_, _, rfl⟩

theorem hostRead_next {p : OutPort} {s t : State} (h : hostRead p s = .next t) :
    ∃ v n, t = { s with hostData := v, free := n } := by
  have ht : t = hostReadValue p s := by
    cases p with
    | tob i =>
      simp only [hostRead] at h
      split at h <;> cases h
      rfl
    | status | res | olen | busy | done => cases h; rfl
  exact ht ▸ hostReadValue_eq p s

/-! ### The invariant -/

/-- What OP selects has a legal TYPE (30_encoding.md R50). -/
theorem typeLegal_of_decodeCmd {op : BitVec 4} {i : Instr} (h : decode (.cmd op) = .ok i) : typeLegal op = true := by
  have hall : ∀ op : BitVec 4, typeLegal op = true ∨ decodeCmd op = .error .reservedType := by decide
  refine (hall op).resolve_right fun he => ?_
  rw [decode, he] at h
  cases h

/-- The invariant speaks of OP, TLEN, the buffers, BUSY, DONE and the marks alone. -/
theorem State.Inv.congr {s t : State} (h : s.Inv) (hop : t.op = s.op) (htlen : t.tlen = s.tlen) (htib : t.tib = s.tib)
    (htob : t.tob = s.tob) (hbusy : t.busy = s.busy) (hdone : t.done = s.done) (hwritten : t.written = s.written)
    (hspoiled : t.spoiled = s.spoiled) : t.Inv := by
  cases s
  cases t
  simp only at hop htlen htib htob hbusy hdone hwritten hspoiled
  subst_vars
  exact ⟨h.tib_wf, h.tob_wf, h.tob_cells, h.not_busy_and_done, h.busy_legal, h.busy_written, h.spoiled_busy⟩

/-- An idle block owes the invariant its buffers only. -/
theorem inv_of_idle {t : State} (htib : Memory.wf t.tib) (htob : Memory.wf t.tob)
    (hcells : ∀ x ∈ t.tob, x.1 < tobSize) (hb : t.busy = false) (hs : t.spoiled = false) : t.Inv where
  tib_wf := htib
  tob_wf := htob
  tob_cells := hcells
  not_busy_and_done := by simp [hb]
  busy_legal := by simp [hb]
  busy_written := by simp [hb]
  spoiled_busy := by simp [hs]

/-- A write of an input spoils a running operation, so that no duty of a running one is left to keep (R94, log 8). -/
theorem State.Inv.of_spoilIfBusy {s t : State} (h : s.Inv) (htib : Memory.wf t.tib) (htob : t.tob = s.tob)
    (hbusy : t.busy = s.busy) (hdone : t.done = s.done) (hspoiled : t.spoiled = (s.spoiled || s.busy)) : t.Inv := by
  have hnot : t.busy = true → t.spoiled ≠ false := fun hb => by simp [hspoiled, hbusy ▸ hb]
  exact {
    tib_wf := htib
    tob_wf := htob ▸ h.tob_wf
    tob_cells := htob ▸ h.tob_cells
    not_busy_and_done := by rw [hbusy, hdone]; exact h.not_busy_and_done
    busy_legal := fun hb hs => absurd hs (hnot hb)
    busy_written := fun hb hs => absurd hs (hnot hb)
    spoiled_busy := fun hs => by
      rw [hspoiled, Bool.or_eq_true] at hs
      rw [hbusy]
      exact hs.elim h.spoiled_busy id }

/-- Start is accepted only under a legal OP and on written inputs (R93, R94). -/
theorem accept_inv {s : State} (h : s.Inv) {i : Instr} (hd : decode (.cmd s.op) = .ok i)
    (hw : s.inputsWritten i) : (accept s).Inv where
  tib_wf := h.tib_wf
  tob_wf := h.tob_wf
  tob_cells := h.tob_cells
  not_busy_and_done := by simp
  busy_legal := fun _ _ => typeLegal_of_decodeCmd hd
  busy_written := fun _ _ j hj => by
    obtain rfl : i = j := Except.ok.inj (hd.symm.trans hj)
    exact hw
  spoiled_busy := by simp

theorem reset_inv : State.reset.Inv :=
  inv_of_idle reset_tib_wf reset_tob_wf (fun _ hx => by cases hx) rfl rfl

/-- An operation Completes, and so leaves the block idle with its buffers in form. -/
theorem exec_operation_inv {i : Instr} {s t : State} (h : s.Inv) (hi : isOperation i = true)
    (hs : s.spoiled = false) (ht : exec i s = .next t) : t.Inv := by
  obtain ⟨hwf, hcells, hop, -⟩ := exec_next_outputs ht
  have htib : t.tib = s.tib := by rw [exec_next ht]
  have hspoiled : t.spoiled = s.spoiled := by rw [exec_next ht]
  exact inv_of_idle (htib ▸ h.tib_wf) (hwf h.tob_wf) (hcells h.tob_cells) (hop hi).1 (hspoiled.trans hs)

/-- A procedure run alone writes no register the invariant speaks of. -/
theorem exec_procedure_inv {i : Instr} {s t : State} (h : s.Inv) (hi : isOperation i = false)
    (ht : exec i s = .next t) : t.Inv := by
  obtain ⟨-, -, -, hproc⟩ := exec_next_outputs ht
  obtain ⟨hbusy, hdone, -, -, -, htob⟩ := hproc hi
  have hframe := exec_next ht
  exact h.congr (by rw [hframe]) (by rw [hframe]) (by rw [hframe]) htob hbusy hdone (by rw [hframe]) (by rw [hframe])

theorem blockTurn_inv {s t : State} (h : s.Inv) (ht : perform (blockTurn s) = .next t) : t.Inv := by
  obtain ⟨-, rfl⟩ | ⟨-, rfl⟩ | ⟨hs, i, hd, ht⟩ := blockTurn_next ht
  · exact h
  · exact inv_of_idle h.tib_wf .nil (by simp) rfl rfl
  · exact exec_operation_inv h (decodeCmd_isOperation hd) hs ht

theorem moveAction_inv {m : Move} {s t : State} (h : s.Inv) (ht : perform (moveAction m s) = .next t) :
    t.Inv := by
  cases m with
  | writeOp v => cases ht; exact h.of_spoilIfBusy h.tib_wf rfl rfl rfl rfl
  | writeOpa v => cases ht; exact h.of_spoilIfBusy h.tib_wf rfl rfl rfl rfl
  | writeTlen n => cases ht; exact h.of_spoilIfBusy h.tib_wf rfl rfl rfl rfl
  | writeTib i c => cases ht; exact h.of_spoilIfBusy (memory_write_wf h.tib_wf i c) rfl rfl rfl rfl
  | start =>
    obtain ⟨-, rfl, i, hd, hw⟩ := hostStart_next ht
    exact accept_inv h hd hw
  | reset => cases ht; exact reset_inv.congr rfl rfl rfl rfl rfl rfl rfl rfl
  | read p =>
    obtain ⟨v, n, rfl⟩ := hostRead_next ht
    exact h.congr rfl rfl rfl rfl rfl rfl rfl rfl
  | run => exact blockTurn_inv h ht
  | engine code estart =>
    obtain ⟨i, hi, ht⟩ := muxEngine_next ht
    exact exec_procedure_inv h hi ht
  | syllable v => exact exec_procedure_inv h (i := .sylenc v) rfl ht

/-- Settles O16: the block's turn and each move keep the invariant, and taking a move off `pending` does not
touch it. -/
theorem everyStepKeepsTheInvariant : Obligations.EveryStepKeepsTheInvariant := by
  intro s t h ht
  obtain ⟨-, ht⟩ | ⟨m, rest, -, ht⟩ := step_next ht
  · exact blockTurn_inv h ht
  · have hrest : { s with pending := rest }.Inv := h.congr rfl rfl rfl rfl rfl rfl rfl rfl
    exact moveAction_inv hrest ht

/-- Settles O15: right after reset the block is idle and its buffers are empty. -/
theorem resetMeetsTheInvariant : Obligations.ResetMeetsTheInvariant := reset_inv

/-- Settles O8: with no move pending it is the block's turn, and an idle block's turn changes nothing. -/
theorem idleBlockWaits : Obligations.IdleBlockWaits := by
  intro s hbusy hpending
  rw [step_nil hpending, blockTurn_of_idle hbusy, perform_finish]

/-! ### The input registers -/

/-- `t` holds the inputs of `s`: OP, OPA, TLEN, TIB and the marks of which are written (10_state.md R14 to R16,
log 5). -/
def sameInputs (s t : State) : Prop :=
  t.op = s.op ∧ t.opa = s.opa ∧ t.tlen = s.tlen ∧ t.tib = s.tib ∧ t.written = s.written

theorem sameInputs_refl (s : State) : sameInputs s s := ⟨rfl, rfl, rfl, rfl, rfl⟩

theorem exec_sameInputs {i : Instr} {s t : State} (h : exec i s = .next t) : sameInputs s t := by
  rw [exec_next h]
  exact ⟨rfl, rfl, rfl, rfl, rfl⟩

theorem blockTurn_sameInputs {s t : State} (h : perform (blockTurn s) = .next t) : sameInputs s t := by
  obtain ⟨-, rfl⟩ | ⟨-, rfl⟩ | ⟨-, i, -, h⟩ := blockTurn_next h
  · exact sameInputs_refl _
  · exact ⟨rfl, rfl, rfl, rfl, rfl⟩
  · exact exec_sameInputs h

/-- The moves that are no host write of an input and no reset leave the inputs alone (R10 column Dir). -/
theorem moveAction_sameInputs {m : Move} {s t : State} (hm : m.writesInputs = false)
    (h : perform (moveAction m s) = .next t) : sameInputs s t := by
  cases m with
  | writeOp | writeOpa | writeTlen | writeTib | reset => cases hm
  | start =>
    obtain ⟨-, rfl, -⟩ := hostStart_next h
    exact ⟨rfl, rfl, rfl, rfl, rfl⟩
  | read p =>
    obtain ⟨v, n, rfl⟩ := hostRead_next h
    exact ⟨rfl, rfl, rfl, rfl, rfl⟩
  | run => exact blockTurn_sameInputs h
  | engine code estart =>
    obtain ⟨i, -, h⟩ := muxEngine_next h
    exact exec_sameInputs h
  | syllable v => exact exec_sameInputs (i := .sylenc v) h

/-- Settles O19: neither the block's turn nor a move that writes no input changes an input. -/
theorem onlyTheHostWritesTheInputs : Obligations.OnlyTheHostWritesTheInputs := by
  intro s t h hm
  obtain ⟨-, h⟩ | ⟨m, rest, hp, h⟩ := step_next h
  · exact blockTurn_sameInputs h
  · have hsame : sameInputs { s with pending := rest } t := moveAction_sameInputs (hm m rest hp) h
    exact hsame

end Sys2Proof.Machine
end

section
/-! SUPPORT. What a decode that answers a next state leaves in RES and CUR, whether or not all of its text is written
(10_state.md R12, R18). -/

namespace Sys2Proof.Machine

/-! ### The width of a result -/

/-- DECX that returns has scanned the whole text and compared once (R59). -/
theorem decx_ok {n : Width} {s : State} {e : Engine} {r : ExactResult} (h : decx n s = .ok (e, r)) :
    exactScan s s.tlen ⟨0, 0, 0⟩ = .ok e ∧ r = exactVerdict n e := by
  unfold decx at h
  split at h
  · rename_i hscan; cases h; exact ⟨hscan, rfl⟩
  · cases h

/-- `ACC[N-1:0]` fits N bits. -/
theorem engine_value_lt (e : Engine) (n : Width) : (e.value n).toNat < 2 ^ n.bits := by
  rw [Engine.value, BitVec.toNat_setWidth]
  exact Nat.lt_of_le_of_lt (Nat.mod_le _ _) (e.acc.setWidth n.bits).isLt

theorem exactVerdict_lt {n : Width} {e : Engine} {v : BitVec 64} {k : Nat} (h : exactVerdict n e = .ok v k) :
    v.toNat < 2 ^ n.bits := by
  unfold exactVerdict at h
  split at h <;> cases h
  exact engine_value_lt e n

/-- An exact-width decode leaves RES within its width, and 0 on an error (R18, R86). -/
theorem runDecode_res_lt {n : Width} {s t : State} (h : runDecode n s = .next t) : t.res.toNat < 2 ^ n.bits := by
  obtain ⟨e, r, hd, ⟨v, k, rfl, rfl⟩ | ⟨k, -, rfl⟩⟩ := runDecode_next h
  · have hv : v.toNat < 2 ^ n.bits := exactVerdict_lt (decx_ok hd).2.symm
    rw [complete_res, BitVec.toNat_setWidth]
    exact Nat.lt_of_le_of_lt (Nat.mod_le _ _) hv
  · exact Nat.two_pow_pos n.bits

theorem runEncode_res {len : Nat} {v : BitVec len} {n : Nat} {s t : State} (h1 : 1 ≤ n) (hn : n ≤ 8)
    (h : runEncode v n s = .next t) : t.res = 0 := by
  obtain ⟨t', ht, ⟨hregs, -⟩, -⟩ := runEncode_spec v n s h1 hn
  obtain rfl : t' = t := Host.Outcome.next.inj (ht.symm.trans h)
  rw [hregs]

/-- Settles O24: the value of a decode is ACC cut to the type's width, and an encode clears RES. -/
theorem resultsFitTheirType : Obligations.ResultsFitTheirType := by
  intro s t
  refine ⟨runDecode_res_lt (n := .w16), runDecode_res_lt (n := .w32), runDecode_res_lt (n := .w64),
    runDecode_res_lt (n := .w32), fun i hi h => ?_⟩
  simp only [List.mem_cons, List.not_mem_nil, or_false] at hi
  obtain rfl | rfl | rfl | rfl | rfl := hi
  · exact runEncode_res (n := 1) (by decide) (by decide) h
  · exact runEncode_res (n := 2) (by decide) (by decide) h
  · exact runEncode_res (n := 4) (by decide) (by decide) h
  · exact runEncode_res (n := 2) (by decide) (by decide) h
  · exact runEncode_res (n := 8) (by decide) (by decide) h

/-! ### The cursor -/

/-- DECX's scan moves CUR one cell for each cell it reads. -/
theorem exactScan_cur {s : State} {todo : Nat} {e e' : Engine} (h : exactScan s todo e = .ok e') :
    e'.cur = e.cur + todo := by
  induction todo generalizing e with
  | zero => cases h; rfl
  | succ todo ih =>
    simp only [exactScan] at h
    split at h
    · have hcur := ih h
      simp only at hcur
      omega
    · cases h

/-- DECB's scan moves CUR one cell at most for each cell it reads. -/
theorem boundedScan_cur_le {n : Width} {s : State} {todo : Nat} {e e' : Engine} {r : BoundedResult}
    (h : boundedScan n s todo e = .ok (e', r)) : e'.cur ≤ e.cur + todo := by
  induction todo generalizing e with
  | zero => cases h; exact Nat.le_refl _
  | succ todo ih =>
    simp only [boundedScan] at h
    split at h
    · split at h
      · cases h; rw [accum_cur]; omega
      · cases h; rw [accum_cur]; omega
      · have hcur := ih h
        simp only [accum_cur] at hcur
        omega
    · cases h

theorem decx_cur {n : Width} {s : State} {e : Engine} {r : ExactResult} (h : decx n s = .ok (e, r)) :
    e.cur = s.tlen := by
  rw [exactScan_cur (decx_ok h).1]
  exact Nat.zero_add _

theorem decb_cur_le {n : Width} {start : Nat} {s : State} {e : Engine} {r : BoundedResult}
    (h : decb n start s = .ok (e, r)) : e.cur ≤ s.tlen := by
  have hcur : e.cur ≤ min start s.tlen + (s.tlen - min start s.tlen) := boundedScan_cur_le h
  omega

/-- R79's loop leaves CUR where its last call of DECB left it. -/
theorem segmentLoop_cur_le {skip : Nat} {s : State} {todo start : Nat} {e e' : Engine} {seg seg' : Vector (BitVec 16) 8}
    {r : Option ErrKind} (h : segmentLoop skip s todo start e seg = .ok (e', seg', r))
    (he : todo = 0 → e.cur ≤ s.tlen) : e'.cur ≤ s.tlen := by
  induction todo generalizing start e seg with
  | zero => cases h; exact he rfl
  | succ todo ih =>
    simp only [segmentLoop] at h
    split at h
    · rename_i hd; exact ih h fun _ => decb_cur_le hd
    · rename_i hd; cases h; exact decb_cur_le hd
    · cases h

theorem runDecode_cur {n : Width} {s t : State} (h : runDecode n s = .next t) : t.cur = s.tlen := by
  obtain ⟨e, r, hd, ⟨v, k, -, rfl⟩ | ⟨k, -, rfl⟩⟩ := runDecode_next h
  · exact decx_cur hd
  · exact decx_cur hd

theorem runDecodeIp6_cur_le {skip : Nat} {s t : State} (h : runDecodeIp6 skip s = .next t) : t.cur ≤ s.tlen := by
  obtain ⟨e, seg, r, hloop, ⟨-, rfl⟩ | ⟨k, -, rfl⟩⟩ := runDecodeIp6_next h
  · exact segmentLoop_cur_le hloop (fun h => by omega)
  · exact segmentLoop_cur_le hloop (fun h => by omega)

theorem runExact_cur {n : Width} {s t : State} (h : runExact n s = .next t) : t.cur = s.tlen := by
  obtain ⟨e, r, hd, rfl⟩ := runExact_next h
  exact decx_cur hd

theorem runBounded_cur_le {n : Width} {start : Nat} {s t : State} (h : runBounded n start s = .next t) :
    t.cur ≤ s.tlen := by
  obtain ⟨e, r, hd, rfl⟩ := runBounded_next h
  exact decb_cur_le hd

/-- Settles O25: a decode that reads the whole text ends at TLEN, a bounded scan at TLEN or before it. -/
theorem cursorStaysInTheText : Obligations.CursorStaysInTheText := by
  intro s t start i hi h
  simp only [List.mem_cons, List.not_mem_nil, or_false] at hi
  obtain rfl | rfl | rfl | rfl | rfl | rfl | rfl | rfl | rfl | rfl | rfl := hi
  · exact (runDecode_cur (n := .w16) h).le
  · exact (runDecode_cur (n := .w32) h).le
  · exact (runDecode_cur (n := .w64) h).le
  · exact (runDecode_cur (n := .w32) h).le
  · exact runDecodeIp6_cur_le h
  · exact (runExact_cur (n := .w16) h).le
  · exact (runExact_cur (n := .w32) h).le
  · exact (runExact_cur (n := .w64) h).le
  · exact runBounded_cur_le (n := .w16) h
  · exact runBounded_cur_le (n := .w32) h
  · exact runBounded_cur_le (n := .w64) h

end Sys2Proof.Machine
end

section
/-! SUPPORT. The text buffers: what one access does, and what can stop an instruction (20_memory.md R27, R28,
93_implementation_defined.md U3). -/

namespace Sys2Proof.Machine

/-! ### One access -/

/-- Settles O26: inside their preconditions TextRead gives what the cell holds, and TextWrite is one write. -/
theorem textAccessesReadAndWriteOneCell : Obligations.TextAccessesReadAndWriteOneCell :=
  ⟨fun _ _ _ hi hc => textRead_ok_iff.2 ⟨hi, hc⟩,
    fun m i c hi => ⟨Memory.write m i c, textWrite_ok_iff.2 ⟨hi, rfl⟩, memory_read_write m i c⟩⟩

/-! ### What can stop a decode -/

/-- The fault of a text cell, below TLEN, that holds no value (U3). -/
def isUnwrittenText (s : State) (f : Fault) : Prop :=
  ∃ k < s.tlen, Memory.read s.tib k = none ∧ f = .unwrittenCell k

theorem textRead_error_isUnwrittenText {s : State} {i : Nat} {f : Fault} (hi : i < s.tlen)
    (h : textRead s i = .error f) : isUnwrittenText s f := by
  obtain ⟨hf, hnone⟩ := textRead_error hi h
  exact ⟨i, hi, hnone, hf⟩

/-- DECX's scan reads the cells from CUR on, as many as are left to do, and so none at or above TLEN. -/
theorem exactScan_error {s : State} {todo : Nat} {e : Engine} {f : Fault} (hc : e.cur + todo ≤ s.tlen)
    (h : exactScan s todo e = .error f) : isUnwrittenText s f := by
  induction todo generalizing e with
  | zero => cases h
  | succ todo ih =>
    simp only [exactScan] at h
    split at h
    · exact ih (by simp only; omega) h
    · rename_i hread
      cases h
      exact textRead_error_isUnwrittenText (by omega) hread

/-- DECB's scan reads the same cells at most. -/
theorem boundedScan_error {n : Width} {s : State} {todo : Nat} {e : Engine} {f : Fault} (hc : e.cur + todo ≤ s.tlen)
    (h : boundedScan n s todo e = .error f) : isUnwrittenText s f := by
  induction todo generalizing e with
  | zero => cases h
  | succ todo ih =>
    simp only [boundedScan] at h
    split at h
    · split at h
      · cases h
      · cases h
      · exact ih (by simp only [accum_cur]; omega) h
    · rename_i hread
      cases h
      exact textRead_error_isUnwrittenText (by omega) hread

theorem decx_error {n : Width} {s : State} {f : Fault} (h : decx n s = .error f) : isUnwrittenText s f := by
  unfold decx at h
  split at h
  · cases h
  · rename_i hscan
    cases h
    exact exactScan_error (Nat.zero_add s.tlen).le hscan

/-- A start index above TLEN is cut to TLEN, so that DECB reads nothing there (R60). -/
theorem decb_error {n : Width} {start : Nat} {s : State} {f : Fault} (h : decb n start s = .error f) :
    isUnwrittenText s f :=
  boundedScan_error (by simp only; omega) h

theorem segmentLoop_error {skip : Nat} {s : State} {todo start : Nat} {e : Engine} {seg : Vector (BitVec 16) 8}
    {f : Fault} (h : segmentLoop skip s todo start e seg = .error f) : isUnwrittenText s f := by
  induction todo generalizing start e seg with
  | zero => cases h
  | succ todo ih =>
    simp only [segmentLoop] at h
    split at h
    · exact ih h
    · cases h
    · rename_i hd
      cases h
      exact decb_error hd

/-! ### What can stop an instruction -/

/-- An outcome that is no refusal, and a fault only for an unwritten cell of the text of `s`. -/
def stopsOnlyOnUnwrittenText (s : State) (o : Host.Outcome State Fault Refusal) : Prop :=
  (∀ r, o ≠ .refused r) ∧ ∀ f, o = .fault f → isUnwrittenText s f

theorem next_stopsOnlyOnUnwrittenText (s t : State) : stopsOnlyOnUnwrittenText s (.next t) := ⟨nofun, nofun⟩

theorem fault_stopsOnlyOnUnwrittenText {s : State} {f : Fault} (h : isUnwrittenText s f) :
    stopsOnlyOnUnwrittenText s (.fault f) :=
  ⟨nofun, fun _ hf => Host.Outcome.fault.inj hf ▸ h⟩

/-- An encode stops nowhere: what it writes fits the buffer (R28, R66). -/
theorem runEncode_stops {len : Nat} (v : BitVec len) {n : Nat} (s : State) (h1 : 1 ≤ n) (hn : n ≤ 8) :
    stopsOnlyOnUnwrittenText s (runEncode v n s) := by
  obtain ⟨t, ht, -⟩ := runEncode_spec v n s h1 hn
  rw [ht]
  exact next_stopsOnlyOnUnwrittenText s t

theorem runDecode_stops (n : Width) (s : State) : stopsOnlyOnUnwrittenText s (runDecode n s) := by
  unfold runDecode
  split
  · exact next_stopsOnlyOnUnwrittenText s _
  · exact next_stopsOnlyOnUnwrittenText s _
  · exact fault_stopsOnlyOnUnwrittenText (decx_error ‹_›)

theorem runDecodeIp6_stops (skip : Nat) (s : State) : stopsOnlyOnUnwrittenText s (runDecodeIp6 skip s) := by
  unfold runDecodeIp6
  split
  · exact next_stopsOnlyOnUnwrittenText s _
  · exact next_stopsOnlyOnUnwrittenText s _
  · exact fault_stopsOnlyOnUnwrittenText (segmentLoop_error ‹_›)

theorem runExact_stops (n : Width) (s : State) : stopsOnlyOnUnwrittenText s (runExact n s) := by
  unfold runExact
  split
  · exact next_stopsOnlyOnUnwrittenText s _
  · exact fault_stopsOnlyOnUnwrittenText (decx_error ‹_›)

theorem runBounded_stops (n : Width) (start : Nat) (s : State) :
    stopsOnlyOnUnwrittenText s (runBounded n start s) := by
  unfold runBounded
  split
  · exact next_stopsOnlyOnUnwrittenText s _
  · exact fault_stopsOnlyOnUnwrittenText (decb_error ‹_›)

theorem exec_stops (i : Instr) (s : State) : stopsOnlyOnUnwrittenText s (exec i s) := by
  cases i with
  | encU16 => exact runEncode_stops (n := 1) _ s (by decide) (by decide)
  | encU32 => exact runEncode_stops (n := 2) _ s (by decide) (by decide)
  | encU64 => exact runEncode_stops (n := 4) _ s (by decide) (by decide)
  | encIp4 => exact runEncode_stops (n := 2) _ s (by decide) (by decide)
  | encIp6 => exact runEncode_stops (n := 8) _ s (by decide) (by decide)
  | decU16 => exact runDecode_stops .w16 s
  | decU32 => exact runDecode_stops .w32 s
  | decU64 => exact runDecode_stops .w64 s
  | decIp4 => exact runDecode_stops .w32 s
  | decIp6 => exact runDecodeIp6_stops resumeSkip s
  | decx16 => exact runExact_stops .w16 s
  | decx32 => exact runExact_stops .w32 s
  | decx64 => exact runExact_stops .w64 s
  | decb16 start => exact runBounded_stops .w16 start s
  | decb32 start => exact runBounded_stops .w32 start s
  | decb64 start => exact runBounded_stops .w64 start s
  | sylenc v => exact next_stopsOnlyOnUnwrittenText s _

/-- Settles O18: encodes and SYLENC stop nowhere, and a scan reads cells below TLEN only. -/
theorem onlyAnUnwrittenCellStopsAnInstruction : Obligations.OnlyAnUnwrittenCellStopsAnInstruction := exec_stops

end Sys2Proof.Machine
end

section
/-! SUPPORT. The command words of the three formats: which decode, and to what (30_encoding.md R43, R47, R48, R50), what
the mux's words make a step do, and the alphabets in index order (R40, R41). -/

namespace Sys2Proof.Machine

/-! ### The fields of a command word -/

/-- WSEL names a width when it is below 3 (R48). -/
theorem wselLegal_iff {code : BitVec 3} : wselLegal code = true ↔ (ecmdWsel code).toNat < 3 := by
  revert code
  decide

/-- ESTART is free in bounded mode, and 0 otherwise (R48; log 16). -/
theorem startLegal_iff {code : BitVec 3} {estart : Nat} :
    startLegal code estart = true ↔ (ecmdMode code).toNat = 1 ∨ estart = 0 := by
  simp [startLegal, ← BitVec.toNat_inj]

theorem ecmd_wf_iff {code : BitVec 3} {estart : Nat} :
    (CodeWord.ecmd code estart).wf = true ↔
      (ecmdWsel code).toNat < 3 ∧ ((ecmdMode code).toNat = 1 ∨ estart = 0) := by
  rw [CodeWord.wf, Bool.and_eq_true, wselLegal_iff, startLegal_iff]

/-! ### What a reserved field answers -/

theorem decode_cmd_of_reserved {op : BitVec 4} (h : 5 ≤ op.toNat % 8) : decode (.cmd op) = .error .reservedType := by
  revert op
  decide

theorem decode_ecmd_of_reserved {code : BitVec 3} (estart : Nat) (h : code.toNat % 4 = 3) :
    decode (.ecmd code estart) = .error .reservedWidth := by
  have hcode : code = 3 ∨ code = 7 := by
    revert code
    decide
  obtain rfl | rfl := hcode
  · rfl
  · rfl

/-! ### The words that decode are the legal ones, and the encodings -/

/-- Each row of the tables, read back from its own word. -/
theorem decode_encode (i : Instr) : decode (encode i) = .ok i := by
  cases i <;> rfl

/-- A word that decodes is legal: WSEL = 3 has no row, and the exact rows check ESTART. -/
theorem wf_of_decode {w : CodeWord} {i : Instr} (h : decode w = .ok i) : w.wf = true := by
  cases w with
  | cmd op => exact typeLegal_of_decodeCmd h
  | ecmd code estart =>
    rw [ecmd_wf_iff]
    simp only [decode, decodeEcmd] at h
    split at h
    case h_1 hmode hwsel | h_2 hmode hwsel | h_3 hmode hwsel =>
      split at h
      · exact ⟨by omega, .inr ‹_›⟩
      · cases h
    case h_4 hmode hwsel | h_5 hmode hwsel | h_6 hmode hwsel => exact ⟨by omega, .inl hmode⟩
    case h_7 => cases h
  | syl v => rfl

/-- R47 has a row for each legal OP. -/
theorem exists_encode_of_typeLegal {op : BitVec 4} (h : typeLegal op = true) : ∃ i, encode i = .cmd op := by
  have hrow : ∃ i ∈ [Instr.encU16, .encU32, .encU64, .encIp4, .encIp6, .decU16, .decU32, .decU64, .decIp4, .decIp6],
      encode i = .cmd op := by
    revert op
    decide
  obtain ⟨i, -, hi⟩ := hrow
  exact ⟨i, hi⟩

/-- R48 has a row for each legal WSEL in either mode, the exact ones with ESTART = 0. -/
theorem exists_encode_of_ecmd_wf {code : BitVec 3} {estart : Nat} (h : (CodeWord.ecmd code estart).wf = true) :
    ∃ i, encode i = .ecmd code estart := by
  obtain ⟨hwsel, hstart⟩ := ecmd_wf_iff.1 h
  have hcode : ((ecmdMode code).toNat ≠ 1 ∧ (code = 0 ∨ code = 1 ∨ code = 2)) ∨
      (code = 4 ∨ code = 5 ∨ code = 6) := by
    clear h hstart
    revert code
    decide
  obtain ⟨hexact, hcode⟩ | hbounded := hcode
  · obtain rfl : estart = 0 := hstart.resolve_left hexact
    obtain rfl | rfl | rfl := hcode
    · exact ⟨.decx16, rfl⟩
    · exact ⟨.decx32, rfl⟩
    · exact ⟨.decx64, rfl⟩
  · obtain rfl | rfl | rfl := hbounded
    · exact ⟨.decb16 estart, rfl⟩
    · exact ⟨.decb32 estart, rfl⟩
    · exact ⟨.decb64 estart, rfl⟩

theorem exists_encode_of_wf {w : CodeWord} (h : w.wf = true) : ∃ i, encode i = w := by
  cases w with
  | cmd op => exact exists_encode_of_typeLegal h
  | ecmd code estart => exact exists_encode_of_ecmd_wf h
  | syl v => exact ⟨.sylenc v, rfl⟩

/-- A word that decodes is legal, so it encodes some instruction, and that is the one it decodes to. -/
theorem encode_of_decode {w : CodeWord} {i : Instr} (h : decode w = .ok i) : encode i = w := by
  obtain ⟨j, rfl⟩ := exists_encode_of_wf (wf_of_decode h)
  obtain rfl : j = i := Except.ok.inj ((decode_encode j).symm.trans h)
  rfl

/-- Settles O2: the decoder inverts the encoder, and only legal words, which are all encodings, decode. -/
theorem decodeAndEncodeAgree : Obligations.DecodeAndEncodeAgree :=
  fun _ i => ⟨encode_of_decode, fun h => h ▸ decode_encode i⟩

/-- Settles O3: a legal word is an encoding and so decodes; the reserved values of TYPE and WSEL have no row. -/
theorem reservedWordsAreRejected : Obligations.ReservedWordsAreRejected := by
  refine ⟨fun w => ⟨fun ⟨_, h⟩ => wf_of_decode h, fun h => ?_⟩, fun _ => decode_cmd_of_reserved,
    fun _ => decode_ecmd_of_reserved⟩
  obtain ⟨i, rfl⟩ := exists_encode_of_wf h
  exact ⟨i, decode_encode i⟩

/-- Settles O1: the word written out in each row is the encoding of the row's instruction. -/
theorem tableWordsDecode : Obligations.TableWordsDecode :=
  ⟨decode_encode .encU16, decode_encode .encU32, decode_encode .encU64, decode_encode .encIp4, decode_encode .encIp6,
    decode_encode .decU16, decode_encode .decU32, decode_encode .decU64, decode_encode .decIp4, decode_encode .decIp6,
    decode_encode .decx16, decode_encode .decx32, decode_encode .decx64,
    decode_encode (.decb16 5), decode_encode (.decb32 5), decode_encode (.decb64 5), decode_encode (.sylenc 0x7C40)⟩

/-! ### The mux's moves -/

/-- A legal micro-command is run on the decode engine (R48; log 15). -/
theorem muxEngine_of_decode {code : BitVec 3} {estart : Nat} {i : Instr} (s : State)
    (h : decode (.ecmd code estart) = .ok i) : muxEngine code estart s = .execute i s := by
  simp [muxEngine, h]

/-- Settles O7: a step makes the pending move, and a move of the mux runs the procedure it hands over. -/
theorem stepRunsTheProcedures : Obligations.StepRunsTheProcedures := by
  intro s rest
  refine ⟨fun code estart i hp hd => ?_, fun v hp => step_cons hp⟩
  rw [step_cons hp, moveAction, muxEngine_of_decode _ hd, perform_execute]

/-! ### The alphabets -/

/-- Settles O27: the look-up of every index, sixteen consonants and four vowels. -/
theorem alphabetsInIndexOrder : Obligations.AlphabetsInIndexOrder :=
  ⟨by decide, by decide⟩

end Sys2Proof.Machine
end

section
/-! SUPPORT. 40_syllable_encoder.md: SYLENC gives the five look-ups of R53, and its texts are exactly the C V C V C
strings, each with one value, which DECX(16) gives back (R55). -/

namespace Sys2Proof.Machine

/-- Settles O29: the loop on W is the five look-ups, and leaves W = 0. -/
theorem syllableEncoderResult : Obligations.SyllableEncoderResult := by
  intro v s
  have hexec : exec (.sylenc v) s = execSylenc v s := rfl
  rw [hexec, execSylenc, sylencode_eq]
  rfl

/-! ### A syllable's value -/

/-- The value whose syllable looks up these five indices, the first the most significant (R53). -/
def syllableValue (a : BitVec 4) (b : BitVec 2) (c : BitVec 4) (d : BitVec 2) (e : BitVec 4) : Chunk :=
  a ++ b ++ c ++ d ++ e

theorem syllableValue_toNat (a : BitVec 4) (b : BitVec 2) (c : BitVec 4) (d : BitVec 2) (e : BitVec 4) :
    (syllableValue a b c d e).toNat = (((a.toNat * 4 + b.toNat) * 16 + c.toNat) * 4 + d.toNat) * 16 + e.toNat := by
  simp only [syllableValue, toNat_append_eq, Nat.reducePow]

/-- Every C V C V C string is a syllable: each slice of the concatenation is the index put there. -/
theorem syllableText_syllableValue (a : BitVec 4) (b : BitVec 2) (c : BitVec 4) (d : BitVec 2) (e : BitVec 4) :
    syllableText (syllableValue a b c d e) = [consChar a, vowChar b, consChar c, vowChar d, consChar e] := by
  have hv := syllableValue_toNat a b c d e
  generalize syllableValue a b c d e = v at hv
  have slice : ∀ {len : Nat} (start : Nat) (x : BitVec len),
      v.toNat / 2 ^ start % 2 ^ len = x.toNat → v.extractLsb' start len = x := fun start x h =>
    BitVec.eq_of_toNat_eq (by rw [BitVec.extractLsb'_toNat, Nat.shiftRight_eq_div_pow, h])
  simp only [syllableText, syllableChar]
  rw [slice 12 a (by omega), slice 10 b (by omega), slice 6 c (by omega), slice 4 d (by omega), slice 0 e (by omega)]

/-- Three consonants and two vowels are 16 bits. -/
theorem textBits_syllableText (v : Chunk) : textBits (syllableText v) = 16 := by
  simp [syllableText, syllableChar, textBits, CharClass.weight]

/-- The indices of a syllable, concatenated, are its value: the slices of R53 cover all 16 bits in order. -/
theorem textValue_syllableText (v : Chunk) : textValue 0 (syllableText v) = v.toNat := by
  simp only [syllableText, syllableChar, textValue, classify_consChar, classify_vowChar, CharClass.weight,
    CharClass.index, BitVec.extractLsb'_toNat, Nat.shiftRight_eq_div_pow]
  omega

theorem syllableText_injective : Function.Injective syllableText := fun v w h =>
  BitVec.eq_of_toNat_eq (by rw [← textValue_syllableText v, h, textValue_syllableText])

theorem classify_syllableText_ne_other (v : Chunk) : ∀ c ∈ syllableText v, classify c ≠ .other := by
  simp [syllableText, syllableChar]

/-! ### A syllable as the input text -/

/-- A state whose cells below TLEN hold the characters of `cs` is readable, and its text is `cs`. -/
theorem text_eq_of_cells {s : State} {cs : List Byte} (hlen : s.tlen = cs.length)
    (hcells : ∀ j < s.tlen, Memory.read s.tib j = cs[j]?) : s.readable ∧ s.text = cs := by
  have hr : s.readable := fun j hj => by
    rw [hcells j hj, List.getElem?_eq_getElem (hlen ▸ hj)]
    rfl
  refine ⟨hr, List.ext_getElem? fun j => ?_⟩
  by_cases hj : j < s.tlen
  · rw [text_getElem? hr hj, hcells j hj]
  · rw [List.getElem?_eq_none (by rw [text_length hr]; omega), List.getElem?_eq_none (by omega)]

/-- An exact-mode micro-command on a readable text: the text accumulated, and the reference's result returned (R59). -/
theorem runExact_eq {s : State} (h : s.readable) (n : Width) :
    runExact n s =
      .next { s.withEngine (consume s.text ⟨0, 0, 0⟩) with ret := some (.exact (exactDecode n.bits s.text)) } := by
  rw [runExact, decx_eq h]

/-- Exact decoding at 16 bits inverts the look-ups (R55 (d)). -/
theorem exactDecode_syllableText (v : Chunk) : exactDecode 16 (syllableText v) = .ok (v.setWidth 64) 16 := by
  rw [exactDecode, if_pos (textBits_syllableText v), textValue_syllableText, BitVec.ofNat_toNat]

/-- Settles O30: `syllableText` is onto the C V C V C strings by `syllableValue`, and one to one as the text gives the
value back; DECX(16) computes that value. -/
theorem syllablesAreABijection : Obligations.SyllablesAreABijection := by
  simp only [Obligations.SyllablesAreABijection, sylencode_eq]
  refine ⟨fun v => ?_, fun a b c d e => ?_, fun v s hlen hcells => ?_⟩
  · exact ⟨syllableText_length v, classify_syllableText_ne_other v, _, _, _, _, _, rfl⟩
  · have honto := syllableText_syllableValue a b c d e
    exact ⟨_, honto, fun w hw => syllableText_injective (hw.trans honto.symm)⟩
  · obtain ⟨hr, htext⟩ := text_eq_of_cells (cs := syllableText v) hlen (hlen ▸ hcells)
    have hexec : exec .decx16 s = runExact .w16 s := rfl
    have hresult : exactDecode Width.w16.bits s.text = .ok (v.setWidth 64) 16 := by
      rw [htext]; exact exactDecode_syllableText v
    rw [hexec, runExact_eq hr, hresult]
    exact ⟨_, rfl, rfl⟩

end Sys2Proof.Machine
end

section
/-! SUPPORT. 41_decode_engine.md: CLASSIFY inverts the alphabets (R56), ACCUM as arithmetic (R57), what the two modes
leave in the engine and return (R58 to R60), how they relate (R61), and that other characters do not matter (R63). -/

namespace Sys2Proof.Machine

/-! ### CLASSIFY -/

theorem classify_eq_cons_iff {c : Byte} {i : BitVec 4} : classify c = .cons i ↔ consChar i = c := by
  refine ⟨fun h => ?_, fun h => h ▸ classify_consChar i⟩
  unfold classify at h
  split at h
  · rename_i k hk
    obtain ⟨hlt, hchar, -⟩ := List.idxOf?_eq_some_iff.1 hk
    have hk16 : k < 2 ^ 4 := hlt
    cases h
    simp only [consChar, BitVec.toNat_ofNat, Nat.mod_eq_of_lt hk16, hchar]
  · split at h <;> cases h

theorem classify_eq_vow_iff {c : Byte} {j : BitVec 2} : classify c = .vow j ↔ vowChar j = c := by
  refine ⟨fun h => ?_, fun h => h ▸ classify_vowChar j⟩
  unfold classify at h
  split at h
  · cases h
  · split at h
    · rename_i k hk
      obtain ⟨hlt, hchar, -⟩ := List.idxOf?_eq_some_iff.1 hk
      have hk4 : k < 2 ^ 2 := hlt
      cases h
      simp only [vowChar, BitVec.toNat_ofNat, Nat.mod_eq_of_lt hk4, hchar]
    · cases h

/-- Other is what is left: a class is one of the three. -/
theorem classify_eq_other_iff {c : Byte} :
    classify c = .other ↔ (∀ i, consChar i ≠ c) ∧ ∀ j, vowChar j ≠ c := by
  simp only [Ne, ← classify_eq_cons_iff, ← classify_eq_vow_iff]
  cases classify c <;> simp

/-- Settles O28: a class with an index is that index's look-up read back, and Other is every class without one. -/
theorem classifyInvertsTheAlphabets : Obligations.ClassifyInvertsTheAlphabets :=
  ⟨fun _ _ => classify_eq_cons_iff, fun _ _ => classify_eq_vow_iff, fun _ => classify_eq_other_iff,
    by decide, by decide, by decide, by decide, by decide, by decide, by decide⟩

/-! ### ACCUM -/

/-- ACCUM as arithmetic on the class's weight and index, for all three classes. -/
theorem accum_eq (c : Byte) (e : Engine) :
    accum c e =
      { e with acc := BitVec.ofNat 64 (e.acc.toNat * 2 ^ (classify c).weight + (classify c).index),
               bitcnt := BitVec.ofNat 7 (min (e.bitcnt.toNat + (classify c).weight) 127) } := by
  have hacc := accum_acc c e
  have hcnt := accum_bitcnt c e
  have hcur := accum_cur c e
  generalize accum c e = e' at hacc hcnt hcur
  obtain ⟨acc, bitcnt, cur⟩ := e'
  congr 1
  · exact BitVec.eq_of_toNat_eq (by rw [hacc, BitVec.toNat_ofNat])
  · exact BitVec.eq_of_toNat_eq (by rw [hcnt, BitVec.toNat_ofNat, Nat.mod_eq_of_lt (by omega)])

theorem accum_of_other {c : Byte} (h : classify c = .other) (e : Engine) : accum c e = e := by
  simp only [accum, h]

/-- Settles O31: 2 to the weight is 16 for a consonant and 4 for a vowel. -/
theorem accumulateStep : Obligations.AccumulateStep := by
  refine fun c e => ⟨fun i h => ?_, fun j h => ?_, fun h => accum_of_other h e⟩
  · rw [accum_eq, h]
    rfl
  · rw [accum_eq, h]
    rfl

/-! ### The procedures run alone -/

theorem Width.zero_lt_bits (n : Width) : 0 < n.bits := Nat.lt_of_lt_of_le (by decide) (width_bits_pos n)

theorem exec_exactOf (n : Width) (s : State) : exec (exactOf n) s = runExact n s := by
  cases n <;> rfl

theorem exec_boundedOf (n : Width) (start : Nat) (s : State) :
    exec (boundedOf n start) s = runBounded n start s := by
  cases n <;> rfl

theorem runExact_spec {s : State} (h : s.readable) (n : Width) :
    ∃ t, runExact n s = .next t ∧ exactProcedureEffect n.bits s t := by
  refine ⟨_, runExact_eq h n, ?_⟩
  rw [exactProcedureEffect, consume_eq, text_length h, Nat.zero_add]
  rfl

/-- A bounded-mode micro-command whose scan ends: the engine's registers set, and the result returned (R60). -/
theorem runBounded_of_decb {n : Width} {start : Nat} {s : State} {e : Engine} {r : BoundedResult}
    (h : decb n start s = .ok (e, r)) :
    runBounded n start s = .next { s.withEngine e with ret := some (.bounded r) } := by
  rw [runBounded, h]

theorem runBounded_spec {s : State} (h : s.readable) (n : Width) (start : Nat) :
    ∃ t, runBounded n start s = .next t ∧ boundedProcedureEffect n.bits start s t := by
  obtain ⟨e, hdecb, -, rfl⟩ := decb_eq h n start
  exact ⟨_, runBounded_of_decb hdecb, rfl⟩

/-- Settles O33: the scan of DECX, for each width. -/
theorem exactProcedureResult : Obligations.ExactProcedureResult :=
  fun _ h => ⟨runExact_spec h .w16, runExact_spec h .w32, runExact_spec h .w64⟩

/-- Settles O34: the scan of DECB, for each width. -/
theorem boundedProcedureResult : Obligations.BoundedProcedureResult :=
  fun _ start h => ⟨runBounded_spec h .w16 start, runBounded_spec h .w32 start, runBounded_spec h .w64 start⟩

/-- DECX completes on a written text, and returns the reference's result. -/
theorem exec_exactOf_returns {s : State} (h : s.readable) (n : Width) :
    ∃ t, exec (exactOf n) s = .next t ∧ t.ret = some (.exact (exactDecode n.bits s.text)) := by
  obtain ⟨t, ht, heffect⟩ := runExact_spec h n
  refine ⟨t, by rw [exec_exactOf, ht], ?_⟩
  rw [heffect]

/-- DECB completes on a written text, and returns the reference's result. -/
theorem exec_boundedOf_returns {s : State} (h : s.readable) (n : Width) (start : Nat) :
    ∃ t, exec (boundedOf n start) s = .next t ∧
      t.ret = some (.bounded (boundedDecode n.bits 0 0 start (s.text.drop start))) := by
  obtain ⟨t, ht, heffect⟩ := runBounded_spec h n start
  refine ⟨t, by rw [exec_boundedOf, ht], ?_⟩
  rw [heffect]

/-! ### The bits of a text -/

/-- Every weight is even (R58 (a)). -/
theorem textBits_even (cs : List Byte) : textBits cs % 2 = 0 := by
  induction cs with
  | nil => rfl
  | cons c cs ih =>
    have hweight : (classify c).weight % 2 = 0 := by cases classify c <;> simp [CharClass.weight]
    simp only [textBits]
    omega

/-- A value of at most 64 bits is held in ACC without loss (R58 (b)). -/
theorem textValue_lt_of_textBits_le {cs : List Byte} (h : textBits cs ≤ 64) : textValue 0 cs < 2 ^ 64 :=
  (textValue_lt cs).trans_le (Nat.pow_le_pow_right (by decide) h)

/-- Settles O32: up to 64 bits neither the shifts lose a bit nor the count saturates. -/
theorem engineHoldsExactlyTheBits : Obligations.EngineHoldsExactlyTheBits := by
  intro n s hr
  obtain ⟨t, ht, heffect⟩ := runExact_spec hr n
  have hcnt : t.bitcnt.toNat = min (textBits s.text) 127 := by
    rw [heffect, BitVec.toNat_ofNat, Nat.mod_eq_of_lt (by omega)]
  have hacc : textBits s.text ≤ 64 → t.acc.toNat = textValue 0 s.text := fun hle => by
    rw [heffect, BitVec.toNat_ofNat, Nat.mod_eq_of_lt (textValue_lt_of_textBits_le hle)]
  refine ⟨t, by rw [exec_exactOf, ht], textBits_even s.text, fun hle => ⟨by omega, hacc hle, ?_⟩, fun _ => hcnt⟩
  rw [hacc hle]
  exact textValue_lt s.text

/-! ### Characters that contribute nothing -/

theorem significant_eq_false_iff {c : Byte} : significant c = false ↔ classify c = .other := by
  simp [significant]

theorem weight_eq_zero_iff {c : Byte} : (classify c).weight = 0 ↔ significant c = false := by
  rw [significant_eq_false_iff]
  cases classify c <;> simp [CharClass.weight]

theorem textBits_eq_zero_iff {cs : List Byte} : textBits cs = 0 ↔ ∀ c ∈ cs, significant c = false := by
  induction cs with
  | nil => simp [textBits]
  | cons c cs ih => simp only [textBits, Nat.add_eq_zero_iff, weight_eq_zero_iff, ih, List.forall_mem_cons]

/-- Text of no bits after a text leaves its value as it is. -/
theorem textValue_append_of_textBits_eq_zero {a b : List Byte} (h : textBits b = 0) :
    textValue 0 (a ++ b) = textValue 0 a := by
  have hb : textValue 0 b < 2 ^ 0 := h ▸ textValue_lt b
  rw [textValue_append, textValue_eq, h]
  omega

theorem textBits_filter_significant (cs : List Byte) : textBits (cs.filter significant) = textBits cs := by
  induction cs with
  | nil => rfl
  | cons c cs ih =>
    cases hc : significant c with
    | true => rw [List.filter_cons_of_pos hc, textBits, textBits, ih]
    | false => rw [List.filter_cons_of_neg (by simp [hc]), textBits, weight_eq_zero_iff.2 hc, ih, Nat.zero_add]

theorem textValue_filter_significant (v : Nat) (cs : List Byte) :
    textValue v (cs.filter significant) = textValue v cs := by
  induction cs generalizing v with
  | nil => rfl
  | cons c cs ih =>
    cases hc : significant c with
    | true => rw [List.filter_cons_of_pos hc, textValue, textValue, ih]
    | false =>
      rw [List.filter_cons_of_neg (by simp [hc]), ih, textValue, significant_eq_false_iff.1 hc]
      simp only [CharClass.weight, CharClass.index, pow_zero, Nat.mul_one, Nat.add_zero]

/-! ### What the exact mode answers -/

theorem exactDecode_filter_significant (n : Nat) (cs : List Byte) :
    exactDecode n (cs.filter significant) = exactDecode n cs := by
  rw [exactDecode, exactDecode, textBits_filter_significant, textValue_filter_significant]

theorem exactDecode_tooSmall_iff {n : Nat} {cs : List Byte} :
    exactDecode n cs = .err .inputTooSmall ↔ textBits cs < n := by
  unfold exactDecode
  split
  · simp; omega
  · split <;> simp_all

theorem exactDecode_of_lt {n : Nat} {cs : List Byte} (h : n < textBits cs) :
    exactDecode n cs = .err .inputTooLarge := by
  rw [exactDecode, if_neg (by omega), if_neg (by omega)]

theorem exactDecode_of_eq {n : Nat} {cs : List Byte} (h : textBits cs = n) :
    exactDecode n cs = .ok (BitVec.ofNat 64 (textValue 0 cs)) n := by
  rw [exactDecode, if_pos h]

/-! ### What the bounded mode answers -/

/-- The bounded decode at one character: it ends here with N bits, or past N, or goes on. -/
theorem boundedDecode_cons (n b v idx : Nat) (c : Byte) (cs : List Byte) :
    boundedDecode n b v idx (c :: cs) =
      if b + (classify c).weight = n then
        .ok (BitVec.ofNat 64 (v * 2 ^ (classify c).weight + (classify c).index)) n idx
      else if n < b + (classify c).weight then .err .inputInvalid
      else boundedDecode n (b + (classify c).weight) (v * 2 ^ (classify c).weight + (classify c).index) (idx + 1) cs :=
  rfl

/-- Ok at cell `i`: the cells up to and including it hold exactly the bits still wanted, the value is theirs, and the
count is N. -/
theorem boundedDecode_ok {n b v idx : Nat} {cs : List Byte} {w : BitVec 64} {k i : Nat}
    (h : boundedDecode n b v idx cs = .ok w k i) :
    k = n ∧ ∃ taken rest, cs = taken ++ rest ∧ i + 1 = idx + taken.length ∧ b + textBits taken = n ∧
      w = BitVec.ofNat 64 (textValue v taken) := by
  induction cs generalizing b v idx with
  | nil => cases h
  | cons c cs ih =>
    rw [boundedDecode_cons] at h
    split at h
    · rename_i heq
      cases h
      exact ⟨rfl, [c], cs, rfl, rfl, heq, rfl⟩
    · split at h
      · cases h
      · obtain ⟨hk, taken, rest, rfl, hi, hbits, hw⟩ := ih h
        refine ⟨hk, c :: taken, rest, rfl, ?_, ?_, hw⟩
        · rw [List.length_cons]; omega
        · rw [textBits]; omega

/-- InputInvalid: the text has more bits than are wanted. -/
theorem lt_textBits_of_boundedDecode_invalid {n b v idx : Nat} {cs : List Byte}
    (h : boundedDecode n b v idx cs = .err .inputInvalid) : n < b + textBits cs := by
  induction cs generalizing b v idx with
  | nil => cases h
  | cons c cs ih =>
    rw [textBits]
    rw [boundedDecode_cons] at h
    split at h
    · cases h
    · split at h
      · omega
      · have := ih h; omega

/-- InputTooSmall: the text runs out before N bits. -/
theorem boundedDecode_tooSmall_iff {n b v idx : Nat} {cs : List Byte} (hb : b < n) :
    boundedDecode n b v idx cs = .err .inputTooSmall ↔ b + textBits cs < n := by
  induction cs generalizing b v idx with
  | nil => simp [boundedDecode, textBits, hb]
  | cons c cs ih =>
    rw [boundedDecode_cons, textBits]
    split
    · simp; omega
    · split
      · simp; omega
      · rw [ih (by omega), Nat.add_assoc]

/-- A bounded result with the cell it ended at forgotten. -/
def BoundedResult.withoutIdx : BoundedResult → ExactResult
  | .ok v k _ => .ok v k
  | .err e => .err e

/-- But for the cell, a bounded decode sees the significant characters alone: any other leaves count and value. -/
theorem boundedDecode_filter_significant {n b : Nat} (v idx idx' : Nat) (cs : List Byte) (hb : b < n) :
    (boundedDecode n b v idx (cs.filter significant)).withoutIdx = (boundedDecode n b v idx' cs).withoutIdx := by
  induction cs generalizing b v idx idx' with
  | nil => rfl
  | cons c cs ih =>
    cases hc : significant c with
    | true =>
      rw [List.filter_cons_of_pos hc, boundedDecode_cons, boundedDecode_cons]
      split
      · rfl
      · split
        · rfl
        · exact ih _ _ _ (by omega)
    | false =>
      rw [List.filter_cons_of_neg (by simp [hc]), boundedDecode_cons, significant_eq_false_iff.1 hc]
      simp only [CharClass.weight, CharClass.index, pow_zero, Nat.mul_one, Nat.add_zero]
      rw [if_neg (by omega), if_neg (by omega)]
      exact ih _ _ _ hb

/-- Bounded results equal but for the cell: the same error, or the same value and count. -/
theorem withoutIdx_eq_cases {r r' : BoundedResult} (h : r.withoutIdx = r'.withoutIdx) :
    (∃ e, r = .err e ∧ r' = .err e) ∨ ∃ v k idx idx', r = .ok v k idx ∧ r' = .ok v k idx' := by
  cases r with
  | ok v k idx =>
    cases r' with
    | ok v' k' idx' => cases h; exact .inr ⟨v, k, idx, idx', rfl, rfl⟩
    | err e' => cases h
  | err e =>
    cases r' with
    | ok v' k' idx' => cases h
    | err e' => cases h; exact .inl ⟨e, rfl, rfl⟩

/-! ### The two modes on one text -/

/-- Where the bounded mode ends at cell `idx`, the exact mode sees its bits and value, and the text after `idx`. -/
theorem boundedDecode_ok_split {n idx : Nat} {cs : List Byte} {v : BitVec 64} {k : Nat}
    (h : boundedDecode n 0 0 0 cs = .ok v k idx) :
    textBits cs = n + textBits (cs.drop (idx + 1)) ∧
      (textBits (cs.drop (idx + 1)) = 0 → v = BitVec.ofNat 64 (textValue 0 cs)) := by
  obtain ⟨-, taken, rest, rfl, hi, hbits, hv⟩ := boundedDecode_ok h
  have hrest : (taken ++ rest).drop (idx + 1) = rest := List.drop_left' (by omega)
  rw [hrest, textBits_append]
  exact ⟨by omega, fun hz => by rw [hv, textValue_append_of_textBits_eq_zero hz]⟩

/-- No significant character from cell `m` on: the text has no bits there. -/
theorem textBits_drop_eq_zero_iff {cs : List Byte} {m : Nat} :
    textBits (cs.drop m) = 0 ↔ ∀ k c, m ≤ k → cs[k]? = some c → significant c = false := by
  rw [textBits_eq_zero_iff]
  constructor
  · intro h k c hk hc
    refine h c (List.mem_of_getElem? (i := k - m) ?_)
    rw [List.getElem?_drop, Nat.add_sub_cancel' hk, hc]
  · intro h c hc
    obtain ⟨j, hj⟩ := List.mem_iff_getElem?.1 hc
    rw [List.getElem?_drop] at hj
    exact h (m + j) c (Nat.le_add_right m j) hj

/-- R61 on texts: the two modes' results, as the text after the bounded mode's end, or its error, says. -/
theorem exactDecode_of_boundedDecode {n : Nat} (hn : 0 < n) (cs : List Byte) :
    (∀ v idx, boundedDecode n 0 0 0 cs = .ok v n idx →
      (∀ k c, idx < k → cs[k]? = some c → significant c = false) → exactDecode n cs = .ok v n) ∧
    (∀ v idx, boundedDecode n 0 0 0 cs = .ok v n idx →
      (∃ k c, idx < k ∧ cs[k]? = some c ∧ significant c = true) → exactDecode n cs = .err .inputTooLarge) ∧
    (boundedDecode n 0 0 0 cs = .err .inputInvalid → exactDecode n cs = .err .inputTooLarge) ∧
    (boundedDecode n 0 0 0 cs = .err .inputTooSmall ↔ exactDecode n cs = .err .inputTooSmall) := by
  refine ⟨fun v idx h hnone => ?_, fun v idx h hsome => ?_, fun h => ?_, ?_⟩
  · obtain ⟨hbits, hv⟩ := boundedDecode_ok_split h
    have hz : textBits (cs.drop (idx + 1)) = 0 := textBits_drop_eq_zero_iff.2 hnone
    rw [exactDecode_of_eq (by omega), hv hz]
  · obtain ⟨hbits, -⟩ := boundedDecode_ok_split h
    obtain ⟨k, c, hk, hc, hsig⟩ := hsome
    have hnz : textBits (cs.drop (idx + 1)) ≠ 0 := fun hz => by
      rw [textBits_drop_eq_zero_iff.1 hz k c hk hc] at hsig
      cases hsig
    exact exactDecode_of_lt (by omega)
  · exact exactDecode_of_lt (by have := lt_textBits_of_boundedDecode_invalid h; omega)
  · rw [boundedDecode_tooSmall_iff hn, exactDecode_tooSmall_iff, Nat.zero_add]

/-- Settles O35: both procedures return the reference's results, which R61's relations hold of. -/
theorem theTwoModesRelate : Obligations.TheTwoModesRelate := by
  intro n s t u hr ht hu
  obtain ⟨t', ht', hexact⟩ := exec_exactOf_returns hr n
  obtain ⟨u', hu', hbounded⟩ := exec_boundedOf_returns hr n 0
  obtain rfl : t = t' := Host.Outcome.next.inj (ht.symm.trans ht')
  obtain rfl : u = u' := Host.Outcome.next.inj (hu.symm.trans hu')
  simpa only [hexact, hbounded, Option.some.injEq, Ret.exact.injEq, Ret.bounded.injEq, List.drop_zero]
    using exactDecode_of_boundedDecode n.zero_lt_bits s.text

/-! ### Texts with the same significant characters -/

theorem exactDecode_congr_significant (n : Nat) {cs cs' : List Byte}
    (h : cs.filter significant = cs'.filter significant) : exactDecode n cs = exactDecode n cs' := by
  rw [← exactDecode_filter_significant, h, exactDecode_filter_significant]

theorem boundedDecode_congr_significant {n : Nat} (hn : 0 < n) (idx idx' : Nat) {cs cs' : List Byte}
    (h : cs.filter significant = cs'.filter significant) :
    (boundedDecode n 0 0 idx cs).withoutIdx = (boundedDecode n 0 0 idx' cs').withoutIdx := by
  rw [← boundedDecode_filter_significant 0 0 idx cs hn, h, boundedDecode_filter_significant 0 0 idx' cs' hn]

/-- Settles O36: both modes' results are those of the significant characters alone, but for the cell DECB ends at. -/
theorem otherCharactersDoNotMatter : Obligations.OtherCharactersDoNotMatter := by
  intro n s s' hr hr'
  refine ⟨fun h => ?_, fun start start' h => ?_⟩
  · obtain ⟨t, ht, hret⟩ := exec_exactOf_returns hr n
    obtain ⟨t', ht', hret'⟩ := exec_exactOf_returns hr' n
    exact ⟨t, t', _, ht, ht', hret, by rw [hret', exactDecode_congr_significant _ h]⟩
  · obtain ⟨t, ht, hret⟩ := exec_boundedOf_returns hr n start
    obtain ⟨t', ht', hret'⟩ := exec_boundedOf_returns hr' n start'
    refine ⟨t, t', ht, ht', ?_⟩
    rw [hret, hret']
    obtain ⟨e, he, he'⟩ | ⟨v, k, idx, idx', hok, hok'⟩ :=
      withoutIdx_eq_cases (boundedDecode_congr_significant n.zero_lt_bits start start' h)
    · exact .inl ⟨e, by rw [he], by rw [he']⟩
    · obtain ⟨rfl, -⟩ := boundedDecode_ok hok
      exact .inr ⟨v, idx, idx', by rw [hok], by rw [hok']⟩

end Sys2Proof.Machine
end

section
/-! SUPPORT. 42_integer_adapters.md: what the integer adapters do in every state (R67 to R72), the lengths of all five
encodes (R74), and that an encode's output decodes to the value encoded (R73). -/

namespace Sys2Proof.Machine

/-! ### The encodes -/

/-- An encode of one to eight chunks completes in every state, with the effect of R66. -/
theorem runEncode_effect {len : Nat} (v : BitVec len) (n : Nat) (s : State) (h1 : 1 ≤ n) (hn : n ≤ 8) :
    ∃ t, runEncode v n s = .next t ∧ encodeEffect v n s t := by
  obtain ⟨t, ht, heffect, -⟩ := runEncode_spec v n s h1 hn
  exact ⟨t, ht, heffect⟩

/-- Settles O37: ENC.U16 is ENCN with one chunk. -/
theorem encodeU16Result : Obligations.EncodeU16Result :=
  ⟨rfl, fun s => runEncode_effect (operandU16 s) 1 s (by decide) (by decide)⟩

/-- Settles O38: ENC.U32 is ENCN with two chunks. -/
theorem encodeU32Result : Obligations.EncodeU32Result :=
  ⟨rfl, fun s => runEncode_effect (operandU32 s) 2 s (by decide) (by decide)⟩

/-- Settles O39: ENC.U64 is ENCN with four chunks. -/
theorem encodeU64Result : Obligations.EncodeU64Result :=
  ⟨rfl, fun s => runEncode_effect (operandU64 s) 4 s (by decide) (by decide)⟩

theorem encodeEffect_olen {len : Nat} {v : BitVec len} {n : Nat} {s t : State} (h : encodeEffect v n s t) :
    t.olen = BitVec.ofNat 6 (6 * n - 1) := by
  rw [h.1]

/-- An encode's OLEN depends on the number of chunks alone. -/
theorem runEncode_olen {len : Nat} (v : BitVec len) (n : Nat) (s : State) (h1 : 1 ≤ n) (hn : n ≤ 8) :
    ∃ t, runEncode v n s = .next t ∧ t.olen = BitVec.ofNat 6 (6 * n - 1) :=
  (runEncode_effect v n s h1 hn).imp fun _ ⟨ht, heffect⟩ => ⟨ht, encodeEffect_olen heffect⟩

/-- Settles O42: OLEN is 6n - 1 after an encode of n = 1, 2, 2, 4 and 8 chunks. -/
theorem encodeLengths : Obligations.EncodeLengths := fun s =>
  ⟨runEncode_olen (operandU16 s) 1 s (by decide) (by decide),
    runEncode_olen (operandU32 s) 2 s (by decide) (by decide),
    runEncode_olen (operandIp4 s) 2 s (by decide) (by decide),
    runEncode_olen (operandU64 s) 4 s (by decide) (by decide),
    runEncode_olen (operandIp6 s) 8 s (by decide) (by decide)⟩

/-! ### The decodes -/

/-- Settles O43: DEC.U16 is DECX(16), completed. -/
theorem decodeU16Result : Obligations.DecodeU16Result :=
  ⟨rfl, fun _ h => runDecode_spec h .w16⟩

/-- Settles O44: DEC.U32 is DECX(32), completed. -/
theorem decodeU32Result : Obligations.DecodeU32Result :=
  ⟨rfl, fun _ h => runDecode_spec h .w32⟩

/-- Settles O45: DEC.U64 is DECX(64), completed. -/
theorem decodeU64Result : Obligations.DecodeU64Result :=
  ⟨rfl, fun _ h => runDecode_spec h .w64⟩

/-- A text of exactly N bits decodes to its value. -/
theorem runDecode_of_textBits_eq {s : State} (h : s.readable) {n : Width} (hbits : textBits s.text = n.bits) :
    ∃ t, runDecode n s = .next t ∧ t.status = 0 ∧ t.res = BitVec.ofNat 128 (textValue 0 s.text) := by
  obtain ⟨t, ht, -, hok, -⟩ := runDecode_spec h n
  exact ⟨t, ht, hok hbits⟩

/-! ### The output copied to the input (R101 (f)) -/

/-- One cell of the copy. -/
def copyCell (tob tib : Memory) (i : Nat) : Memory :=
  match Memory.read tob i with
  | some c => Memory.write tib i c
  | none => tib

theorem copyOutputToInput_tib (s : State) :
    (copyOutputToInput s).tib = (List.range s.olen.toNat).foldl (copyCell s.tob) s.tib := rfl

theorem read_copyCell (tob tib : Memory) (i j : Nat) :
    Memory.read (copyCell tob tib i) j =
      if j = i then (Memory.read tob i).or (Memory.read tib j) else Memory.read tib j := by
  unfold copyCell
  cases Memory.read tob i with
  | some c => rw [memory_read_write, Option.some_or]
  | none => rw [Option.none_or, ite_self]

/-- The copy of cells 0 to n - 1: a cell below n reads as in the output where that holds a value. -/
theorem read_foldl_copyCell (tob tib : Memory) (n j : Nat) :
    Memory.read ((List.range n).foldl (copyCell tob) tib) j =
      if j < n then (Memory.read tob j).or (Memory.read tib j) else Memory.read tib j := by
  induction n with
  | zero => rfl
  | succ n ih =>
    rw [List.range_succ, List.foldl_append, List.foldl_cons, List.foldl_nil, read_copyCell, ih]
    by_cases hj : j = n
    · subst hj
      rw [if_pos rfl, if_neg (by omega), if_pos (by omega)]
    · rw [if_neg hj]
      exact if_congr (by omega) rfl rfl

/-! ### The text of an encode -/

/-- The first `m` characters of the proquint of an n-chunk value (30_encoding.md R44). -/
def proquintText {len : Nat} (v : BitVec len) (n m : Nat) : List Byte := (List.range m).map (proquintCell v n)

theorem proquintText_append {len : Nat} (v : BitVec len) (n m k : Nat) :
    proquintText v n (m + k) = proquintText v n m ++ (List.range k).map fun j => proquintCell v n (m + j) := by
  simp only [proquintText, List.range_add, List.map_append, List.map_map, Function.comp_def]

/-- After an encode, the copied output is a written text: the 6n - 1 characters of the proquint. -/
theorem copyOutputToInput_text {len : Nat} {v : BitVec len} {n : Nat} {s t : State} (hn : n ≤ 8)
    (h : encodeEffect v n s t) :
    (copyOutputToInput t).readable ∧ (copyOutputToInput t).text = proquintText v n (6 * n - 1) := by
  have holen : t.olen.toNat = 6 * n - 1 := by rw [encodeEffect_olen h, BitVec.toNat_ofNat]; omega
  refine text_eq_of_cells ?_ fun j hj => ?_
  · rw [proquintText, List.length_map, List.length_range]
    exact holen
  · replace hj : j < 6 * n - 1 := holen ▸ hj
    rw [copyOutputToInput_tib, read_foldl_copyCell, if_pos (by omega), h.2, if_pos hj, Option.some_or,
      proquintText, List.getElem?_map, List.getElem?_range hj, Option.map_some]

/-- Cells 6k to 6k + 5 hold syllable k and a separator. -/
theorem proquintText_syllable {len : Nat} (v : BitVec len) (n k : Nat) :
    proquintText v n (6 * k + 6) = proquintText v n (6 * k) ++ syllableText (chunk v n k) ++ [separator] := by
  have hsep : proquintCell v n (6 * k + 5) = separator := if_pos (by omega)
  have hchar (j : Nat) (hj : j < 5) : proquintCell v n (6 * k + j) = syllableChar (chunk v n k) j := by
    rw [proquintCell, if_neg (by omega), show (6 * k + j) / 6 = k by omega, show (6 * k + j) % 6 = j by omega]
  have hcells : ((List.range 6).map fun j => proquintCell v n (6 * k + j)) =
      [proquintCell v n (6 * k + 0), proquintCell v n (6 * k + 1), proquintCell v n (6 * k + 2),
        proquintCell v n (6 * k + 3), proquintCell v n (6 * k + 4), proquintCell v n (6 * k + 5)] := rfl
  rw [proquintText_append, hcells, hchar 0 (by decide), hchar 1 (by decide), hchar 2 (by decide),
    hchar 3 (by decide), hchar 4 (by decide), hsep, List.append_assoc]
  rfl

@[simp] theorem textBits_separator : textBits [separator] = 0 := by
  rw [textBits, classify_separator]
  rfl

theorem textBits_proquintText {len : Nat} (v : BitVec len) (n k : Nat) :
    textBits (proquintText v n (6 * k)) = 16 * k := by
  induction k with
  | zero => rfl
  | succ k ih =>
    rw [Nat.mul_succ, proquintText_syllable, textBits_append, textBits_append, ih, textBits_syllableText,
      textBits_separator]
    omega

/-- The first k syllables, concatenated, are the top k chunks of the value. -/
theorem textValue_proquintText {len : Nat} (v : BitVec len) {n k : Nat} (hlen : len ≤ 16 * n) (hk : k ≤ n) :
    textValue 0 (proquintText v n (6 * k)) = v.toNat / 2 ^ (16 * (n - k)) := by
  induction k with
  | zero =>
    have hv : v.toNat < 2 ^ (16 * n) := v.isLt.trans_le (Nat.pow_le_pow_right (by decide) hlen)
    exact (Nat.div_eq_of_lt hv).symm
  | succ k ih =>
    have hchunk : (chunk v n k).toNat = v.toNat / 2 ^ (16 * (n - (k + 1))) % 2 ^ 16 := by
      rw [chunk, BitVec.extractLsb'_toNat, Nat.shiftRight_eq_div_pow,
        show 16 * n - 16 - 16 * k = 16 * (n - (k + 1)) by omega]
    have hdiv : v.toNat / 2 ^ (16 * (n - k)) = v.toNat / 2 ^ (16 * (n - (k + 1))) / 2 ^ 16 := by
      rw [Nat.div_div_eq_div_mul, ← pow_add, show 16 * (n - (k + 1)) + 16 = 16 * (n - k) by omega]
    rw [Nat.mul_succ, proquintText_syllable, textValue_append_of_textBits_eq_zero textBits_separator,
      textValue_append, textValue_eq, textBits_syllableText, textValue_syllableText, ih (by omega), hchunk, hdiv,
      Nat.div_add_mod']

/-- The proquint without the separator after its last syllable: all the bits, and the whole value. -/
theorem proquintText_bits_and_value {len : Nat} (v : BitVec len) {n : Nat} (h1 : 1 ≤ n) (hlen : len ≤ 16 * n) :
    textBits (proquintText v n (6 * n - 1)) = 16 * n ∧ textValue 0 (proquintText v n (6 * n - 1)) = v.toNat := by
  have hsep : proquintCell v n (6 * n - 1) = separator := if_pos (by omega)
  have hlast : proquintText v n (6 * n) = proquintText v n (6 * n - 1) ++ [separator] := by
    rw [show 6 * n = 6 * n - 1 + 1 by omega, proquintText_append, List.range_one, List.map_singleton,
      Nat.add_zero, Nat.add_sub_cancel, hsep]
  have hbits := textBits_proquintText v n n
  have hvalue := textValue_proquintText v hlen (Nat.le_refl n)
  rw [hlast, textBits_append, textBits_separator] at hbits
  rw [hlast, textValue_append_of_textBits_eq_zero textBits_separator, Nat.sub_self, Nat.mul_zero, pow_zero,
    Nat.div_one] at hvalue
  exact ⟨hbits, hvalue⟩

/-! ### The round trip -/

/-- Decoding the copied output of an encode gives the encoded value (R73). -/
theorem runDecode_copyOutputToInput {w : Width} (v : BitVec w.bits) (n : Nat) (s : State) (hw : w.bits = 16 * n) :
    ∃ t u, runEncode v n s = .next t ∧ runDecode w (copyOutputToInput t) = .next u ∧
      u.status = 0 ∧ u.res = v.setWidth 128 := by
  have hmin := width_bits_pos w
  have hmax := width_bits_le w
  obtain ⟨t, ht, heffect⟩ := runEncode_effect v n s (by omega) (by omega)
  obtain ⟨hreadable, htext⟩ := copyOutputToInput_text (by omega) heffect
  obtain ⟨hbits, hvalue⟩ := proquintText_bits_and_value v (n := n) (by omega) hw.le
  obtain ⟨u, hu, hstatus, hres⟩ := runDecode_of_textBits_eq hreadable (n := w) (by rw [htext, hbits, hw])
  exact ⟨t, u, ht, hu, hstatus, by rw [hres, htext, hvalue, BitVec.ofNat_toNat]⟩

/-- The reset state with the syllable of 0 as its text, and `extra` cells of separators after it. -/
def zeroSyllableInput (extra : Nat) : State :=
  { State.reset with
    tlen := 5 + extra
    tib := (syllableText 0 ++ List.replicate extra separator).mapIdx fun i c => (i, c) }

/-- The syllable of 0, with a separator after it or without, decodes to 0. -/
theorem runDecode_zeroSyllableInput {extra : Nat} (h : extra ≤ 1) :
    ∃ t, runDecode .w16 (zeroSyllableInput extra) = .next t ∧ t.status = 0 ∧ t.res = 0 := by
  obtain rfl | rfl : extra = 0 ∨ extra = 1 := by omega
  · exact runDecode_of_textBits_eq (by decide) (by decide)
  · exact runDecode_of_textBits_eq (by decide) (by decide)

/-- Settles O51: the encodes' texts decode to the values, and the syllable of 0 decodes to 0 also with a separator
after it. -/
theorem integersRoundTrip : Obligations.IntegersRoundTrip := by
  refine ⟨fun s => ⟨?_, ?_, ?_⟩, ?_⟩
  · exact runDecode_copyOutputToInput (w := .w16) (operandU16 s) 1 s rfl
  · exact runDecode_copyOutputToInput (w := .w32) (operandU32 s) 2 s rfl
  · exact runDecode_copyOutputToInput (w := .w64) (operandU64 s) 4 s rfl
  · obtain ⟨t, ht, hstatus, hres⟩ := runDecode_zeroSyllableInput (extra := 0) (by decide)
    obtain ⟨t', ht', hstatus', hres'⟩ := runDecode_zeroSyllableInput (extra := 1) (by decide)
    exact ⟨zeroSyllableInput 0, zeroSyllableInput 1, t, t', by decide, ht, ht', hstatus, hstatus',
      hres.trans hres'.symm⟩

end Sys2Proof.Machine
end

section
/-! SUPPORT. 43_ipv4_adapter.md: the packing of the octets is the identity on the low 32 bits, so the IPv4 operations
are those of 32 bits (R75, R76); and addresses come back from their encoding (R77). -/

namespace Sys2Proof.Machine

/-! ### The 32-bit paths -/

theorem exec_encIp4 (s : State) : exec .encIp4 s = runEncode (operandU32 s) 2 s :=
  congrArg (runEncode · 2 s) (operandIp4_eq s)

/-- Settles O40: ENC.IP4 is ENCN of the packed octets with two chunks. -/
theorem encodeIp4Result : Obligations.EncodeIp4Result :=
  ⟨rfl, fun s => runEncode_effect (operandIp4 s) 2 s (by decide) (by decide)⟩

/-- Settles O46: DEC.IP4 is DECX(32), completed. -/
theorem decodeIp4Result : Obligations.DecodeIp4Result :=
  ⟨rfl, fun _ h => runDecode_spec h .w32⟩

/-- Settles O47: the octets packed are the operand of ENC.U32, and both decodes run DECX(32). -/
theorem ipv4OperationsAreThoseOf32Bits : Obligations.Ipv4OperationsAreThoseOf32Bits :=
  fun s => ⟨exec_encIp4 s, rfl⟩

/-! ### The round trip -/

/-- Octet k of the result is octet k of the operand when RES is the operand's low 32 bits (R45, R46). -/
theorem resultOctet_eq_operandOctet {s u : State} (hres : u.res = (operandU32 s).setWidth 128) {k : Nat} (hk : k < 4) :
    resultOctet u k = operandOctet s k := by
  rw [resultOctet, operandOctet, hres, operandU32]
  ext i hi
  have hlow : 24 - 8 * k + i < 32 := by omega
  have hwide : 24 - 8 * k + i < 128 := by omega
  simp [hlow, hwide]

/-- The host reads back the proquint of the operand from the output of ENC.IP4 (R44, R75). -/
theorem encIp4_text (s : State) :
    ∃ t, exec .encIp4 s = .next t ∧ (copyOutputToInput t).text = proquintText (operandU32 s) 2 11 := by
  obtain ⟨t, ht, heffect⟩ := runEncode_effect (operandU32 s) 2 s (by decide) (by decide)
  exact ⟨t, (exec_encIp4 s).trans ht, (copyOutputToInput_text (by decide) heffect).2⟩

/-- DEC.IP4 of the proquint of a 32-bit value gives the value, whatever wrote the text (R76). -/
theorem decIp4_of_proquintText {s : State} (h : s.readable) {v : BitVec 32} (htext : s.text = proquintText v 2 11) :
    ∃ t, exec .decIp4 s = .next t ∧ t.status = 0 ∧ t.res = v.setWidth 128 := by
  obtain ⟨hbits, hvalue⟩ := proquintText_bits_and_value v (n := 2) (by decide) (by decide)
  obtain ⟨t, ht, hstatus, hres⟩ := runDecode_of_textBits_eq h (n := .w32) (by rw [htext]; exact hbits)
  exact ⟨t, ht, hstatus, by rw [hres, htext, hvalue, BitVec.ofNat_toNat]⟩

/-- 127.0.0.1 is `lusab-babad`. -/
theorem proquintText_loopback : proquintText (0x7F000001 : BitVec 32) 2 11 =
    [0x6C, 0x75, 0x73, 0x61, 0x62, 0x2D, 0x62, 0x61, 0x62, 0x61, 0x64] := by
  decide

/-- 63.84.220.193 is `gutih-tugad`. -/
theorem proquintText_secondVector : proquintText (0x3F54DCC1 : BitVec 32) 2 11 =
    [0x67, 0x75, 0x74, 0x69, 0x68, 0x2D, 0x74, 0x75, 0x67, 0x61, 0x64] := by
  decide

/-- Settles O52: the round trip of the 32-bit operand, read octet by octet; and each vector's text is the proquint of
its address. -/
theorem ipv4AddressesRoundTrip : Obligations.Ipv4AddressesRoundTrip := by
  refine ⟨fun s => ?_, fun s => ?_, fun s h => ⟨fun htext => ?_, fun htext => ?_⟩⟩
  · obtain ⟨t, u, ht, hu, hstatus, hres⟩ := runDecode_copyOutputToInput (w := .w32) (operandU32 s) 2 s rfl
    exact ⟨t, u, (exec_encIp4 s).trans ht, hu, hstatus, hres, fun k hk => resultOctet_eq_operandOctet hres hk⟩
  · obtain ⟨t, ht, htext⟩ := encIp4_text s
    have hvector {v : BitVec 32} (hv : operandU32 s = v) : (copyOutputToInput t).text = proquintText v 2 11 := hv ▸ htext
    exact ⟨fun hv => ⟨t, ht, (hvector hv).trans proquintText_loopback⟩,
      fun hv => ⟨t, ht, (hvector hv).trans proquintText_secondVector⟩⟩
  · exact decIp4_of_proquintText h (htext.trans proquintText_loopback.symm)
  · exact decIp4_of_proquintText h (htext.trans proquintText_secondVector.symm)

end Sys2Proof.Machine
end

section
/-! SUPPORT. 44_ipv6_adapter.md: what the IPv6 operations do in every state (R78, R79), that DEC.IP6 reads no further
than it must (R80), when the resume skip does not matter (R81), and that addresses come back from their encoding
(R82). -/

namespace Sys2Proof.Machine

/-! ### The operations -/

theorem exec_encIp6 (s : State) : exec .encIp6 s = runEncode s.opa 8 s :=
  congrArg (runEncode · 8 s) (operandIp6_eq s)

/-- Settles O41: ENC.IP6 is ENCN of OPA with eight chunks, as the segments put together are OPA. -/
theorem encodeIp6Result : Obligations.EncodeIp6Result :=
  ⟨rfl, fun s => exec_encIp6 s ▸ runEncode_effect s.opa 8 s (by decide) (by decide)⟩

/-- DEC.IP6 for any resume skip completes on every readable text, with the effect of R79. -/
theorem runDecodeIp6_effect {s : State} (h : s.readable) (skip : Nat) :
    ∃ t, runDecodeIp6 skip s = .next t ∧ segmentsEffect skip s t :=
  (runDecodeIp6_spec h skip).imp fun _ ⟨ht, heffect, _⟩ => ⟨ht, heffect⟩

/-- Settles O48: DEC.IP6 is R79's loop with a resume skip of 1. -/
theorem decodeIp6Result : Obligations.DecodeIp6Result :=
  ⟨rfl, fun _ h => runDecodeIp6_effect h 1⟩

/-! ### The text after the last cell read (R80) -/

section Continuation
variable {s s' : State} (hlen : s.tlen ≤ s'.tlen) (hcells : ∀ i < s.tlen, Memory.read s'.tib i = Memory.read s.tib i)
include hlen hcells

theorem textRead_of_continuation {i : Nat} {c : Byte} (h : textRead s i = .ok c) : textRead s' i = .ok c := by
  obtain ⟨hi, hc⟩ := textRead_ok_iff.1 h
  exact textRead_ok_iff.2 ⟨hi.trans_le hlen, (hcells i hi).trans hc⟩

/-- A scan that ends before it runs out of cells reads the same cells of a longer text, and no others. -/
theorem boundedScan_of_continuation {n : Width} {todo todo' : Nat} {e e' : Engine} {r : BoundedResult}
    (htodo : todo ≤ todo') (h : boundedScan n s todo e = .ok (e', r)) (hr : r ≠ .err .inputTooSmall) :
    boundedScan n s' todo' e = .ok (e', r) := by
  induction todo generalizing todo' e with
  | zero => cases h; exact absurd rfl hr
  | succ todo ih =>
    obtain ⟨todo', rfl⟩ : ∃ m, todo' = m + 1 := ⟨todo' - 1, by omega⟩
    simp only [boundedScan] at h ⊢
    split at h
    · rename_i hread
      rw [textRead_of_continuation hlen hcells hread]
      split at h
      · rename_i hcount; simpa only [hcount] using h
      · rename_i hcount; simpa only [hcount] using h
      · rename_i hcount
        simp only [hcount]
        exact ih (by omega) h
    · cases h

/-- DECB that ends otherwise than with InputTooSmall started inside the text, and ends the same on a longer one. -/
theorem decb_of_continuation {n : Width} {start : Nat} {e : Engine} {r : BoundedResult}
    (h : decb n start s = .ok (e, r)) (hr : r ≠ .err .inputTooSmall) : decb n start s' = .ok (e, r) := by
  unfold decb at h ⊢
  rcases Nat.le_total start s.tlen with hstart | hstart
  · rw [Nat.min_eq_left hstart] at h
    rw [Nat.min_eq_left (hstart.trans hlen)]
    exact boundedScan_of_continuation hlen hcells (by omega) h hr
  · rw [Nat.min_eq_right hstart, Nat.sub_self] at h
    cases h
    exact absurd rfl hr

/-- R79's loop makes the same calls on a longer text, up to the eighth or the first InputInvalid. -/
theorem segmentLoop_of_continuation {skip todo start : Nat} {e e' : Engine} {seg seg' : Vector (BitVec 16) 8}
    {r : Option ErrKind} (h : segmentLoop skip s todo start e seg = .ok (e', seg', r))
    (hr : r ≠ some .inputTooSmall) : segmentLoop skip s' todo start e seg = .ok (e', seg', r) := by
  induction todo generalizing start e seg with
  | zero => exact h
  | succ todo ih =>
    simp only [segmentLoop] at h ⊢
    split at h
    · rename_i hcall
      rw [decb_of_continuation hlen hcells hcall nofun]
      exact ih h
    · rename_i k hcall
      cases h
      rw [decb_of_continuation hlen hcells hcall fun hk => hr (congrArg some (BoundedResult.err.inj hk))]
    · cases h

/-- DEC.IP6 gives the host the same on a longer text, unless the shorter one ran out, where the loop starts from the
same registers. -/
theorem runDecodeIp6_outputs_of_continuation {skip : Nat} {t : State} (hengine : s'.engine = s.engine)
    (hseg : s'.seg = s.seg) (h : runDecodeIp6 skip s = .next t) (hstatus : t.status ≠ 1) :
    outcomeOutputs (runDecodeIp6 skip s') = .next t.outputs := by
  obtain ⟨e, seg, r, hloop, ⟨rfl, rfl⟩ | ⟨k, rfl, rfl⟩⟩ := runDecodeIp6_next h
  · rw [runDecodeIp6, hengine, hseg, segmentLoop_of_continuation hlen hcells hloop nofun]
    rfl
  · have hk : some k ≠ some ErrKind.inputTooSmall := by rintro ⟨⟩; exact hstatus rfl
    rw [runDecodeIp6, hengine, hseg, segmentLoop_of_continuation hlen hcells hloop hk]
    rfl

end Continuation

theorem exists_next_of_outcomeOutputs {o : Host.Outcome State Fault Refusal} {r : Outputs}
    (h : outcomeOutputs o = .next r) : ∃ t, o = .next t ∧ t.outputs = r := by
  cases o with
  | next t => exact ⟨t, rfl, Host.Outcome.next.inj h⟩
  | fault f => cases h
  | refused f => cases h

/-- The state `s` with the input text of `s'`. -/
def State.withTextOf (s s' : State) : State := { s with tlen := s'.tlen, tib := s'.tib }

theorem withTextOf_sameText (s s' : State) : sameText (s.withTextOf s') s' := ⟨rfl, fun _ _ => rfl⟩

/-- Settles O49: the loop makes the same calls on both texts, and what it gives the host depends on the text alone, so
that it may run on the longer text from the registers of the shorter one's state. -/
theorem decodeIp6IgnoresTrailingText : Obligations.DecodeIp6IgnoresTrailingText := by
  intro s s' t hlen hcells ht hstatus
  have hlonger : outcomeOutputs (exec .decIp6 s') = .next t.outputs :=
    calc outcomeOutputs (runDecodeIp6 1 s')
      _ = outcomeOutputs (runDecodeIp6 1 (s.withTextOf s')) :=
        (runDecodeIp6_outputs_congr (withTextOf_sameText s s') 1).symm
      _ = .next t.outputs :=
        runDecodeIp6_outputs_of_continuation (s' := s.withTextOf s') hlen hcells rfl rfl ht hstatus
  obtain ⟨t', ht', houtputs⟩ := exists_next_of_outcomeOutputs hlonger
  exact ⟨t', ht', congrArg Outputs.status houtputs, congrArg Outputs.res houtputs⟩

/-! ### One call of the reference loop -/

theorem segmentsDecode_succ_of_ok {skip todo start k idx : Nat} {cs : List Byte} {g : BitVec 64}
    (h : boundedDecode 16 0 0 start (cs.drop start) = .ok g k idx) :
    segmentsDecode skip cs (todo + 1) start =
      (g.setWidth 16 :: (segmentsDecode skip cs todo (idx + skip)).1, (segmentsDecode skip cs todo (idx + skip)).2) := by
  simp only [segmentsDecode, h]

theorem segmentsDecode_succ_of_err {skip todo start : Nat} {cs : List Byte} {e : ErrKind}
    (h : boundedDecode 16 0 0 start (cs.drop start) = .err e) :
    segmentsDecode skip cs (todo + 1) start = ([], some e) := by
  simp only [segmentsDecode, h]

theorem segmentEnds_succ_of_ok {skip todo start k idx : Nat} {cs : List Byte} {g : BitVec 64}
    (h : boundedDecode 16 0 0 start (cs.drop start) = .ok g k idx) :
    segmentEnds skip cs (todo + 1) start = idx :: segmentEnds skip cs todo (idx + skip) := by
  simp only [segmentEnds, h]

/-! ### A start cell that holds no significant character -/

/-- Cell `i` does not exist or holds an other character (R81). -/
def noSignificantAt (cs : List Byte) (i : Nat) : Prop := ∀ c, cs[i]? = some c → significant c = false

/-- A bounded decode may as well start one cell later: the cell it would have examined contributes nothing. -/
theorem boundedDecode_start_succ {n b : Nat} (v : Nat) {cs : List Byte} {start : Nat} (hb : b < n)
    (h : noSignificantAt cs start) :
    boundedDecode n b v (start + 1) (cs.drop (start + 1)) = boundedDecode n b v start (cs.drop start) := by
  rcases Nat.lt_or_ge start cs.length with hstart | hstart
  · have hother := significant_eq_false_iff.1 (h _ (List.getElem?_eq_getElem hstart))
    rw [List.drop_eq_getElem_cons hstart, boundedDecode_cons, hother]
    simp only [CharClass.weight, CharClass.index, pow_zero, Nat.mul_one, Nat.add_zero]
    rw [if_neg (by omega), if_neg (by omega)]
  · rw [List.drop_eq_nil_of_le hstart, List.drop_eq_nil_of_le (by omega)]
    rfl

theorem segmentsDecode_start_succ (skip todo : Nat) {cs : List Byte} {start : Nat} (h : noSignificantAt cs start) :
    segmentsDecode skip cs todo (start + 1) = segmentsDecode skip cs todo start := by
  cases todo with
  | zero => rfl
  | succ todo => simp only [segmentsDecode, boundedDecode_start_succ 0 (by decide : 0 < 16) h]

theorem segmentEnds_start_succ (skip todo : Nat) {cs : List Byte} {start : Nat} (h : noSignificantAt cs start) :
    segmentEnds skip cs todo (start + 1) = segmentEnds skip cs todo start := by
  cases todo with
  | zero => rfl
  | succ todo => simp only [segmentEnds, boundedDecode_start_succ 0 (by decide : 0 < 16) h]

/-! ### The resume skips 1 and 2 (R81) -/

/-- The skips agree when no cell after an end but the last holds a significant character: each next call, one cell
later, is the same call. -/
theorem segmentsDecode_skip_two {cs : List Byte} {todo start : Nat}
    (h : ∀ idx ∈ segmentEnds 1 cs todo start, noSignificantAt cs (idx + 1)) :
    segmentsDecode 2 cs (todo + 1) start = segmentsDecode 1 cs (todo + 1) start := by
  induction todo generalizing start with
  | zero => rfl
  | succ todo ih =>
    cases hcall : boundedDecode 16 0 0 start (cs.drop start) with
    | err e => rw [segmentsDecode_succ_of_err hcall, segmentsDecode_succ_of_err hcall]
    | ok g k idx =>
      rw [segmentEnds_succ_of_ok hcall, List.forall_mem_cons] at h
      obtain ⟨hnext, hlater⟩ := h
      have hrest : segmentsDecode 2 cs (todo + 1) (idx + 2) = segmentsDecode 1 cs (todo + 1) (idx + 1) :=
        (segmentsDecode_start_succ 2 (todo + 1) hnext).trans (ih hlater)
      rw [segmentsDecode_succ_of_ok hcall, segmentsDecode_succ_of_ok hcall, hrest]

/-- STATUS and RES after DEC.IP6 are determined by the segments and the first error. -/
theorem segmentsEffect_status_res {skip skip' : Nat} {s s' t t' : State} (h : segmentsEffect skip s t)
    (h' : segmentsEffect skip' s' t') (hsegs : segmentsDecode skip' s'.text 8 0 = segmentsDecode skip s.text 8 0) :
    t'.status = t.status ∧ t'.res = t.res := by
  obtain ⟨-, -, hok, herr⟩ := h
  obtain ⟨-, -, hok', herr'⟩ := h'
  rw [hsegs] at hok' herr'
  cases hr : (segmentsDecode skip s.text 8 0).2 with
  | none =>
    obtain ⟨hstatus, hres⟩ := hok hr
    obtain ⟨hstatus', hres'⟩ := hok' hr
    exact ⟨hstatus'.trans hstatus.symm, hres'.trans hres.symm⟩
  | some e =>
    obtain ⟨hstatus, hres⟩ := herr e hr
    obtain ⟨hstatus', hres'⟩ := herr' e hr
    exact ⟨hstatus'.trans hstatus.symm, hres'.trans hres.symm⟩

/-- Settles O50: under R81's condition the two skips decode the same segments up to the same first error. -/
theorem resumeSkipDoesNotMatterAfterASeparator : Obligations.ResumeSkipDoesNotMatterAfterASeparator := by
  intro s hr hends
  obtain ⟨t, ht, heffect⟩ := runDecodeIp6_effect hr 1
  obtain ⟨t', ht', heffect'⟩ := runDecodeIp6_effect hr 2
  exact ⟨t, t', ht, ht', segmentsEffect_status_res heffect heffect' (segmentsDecode_skip_two hends)⟩

/-! ### The round trip (R82) -/

/-- A bounded decode of 16 bits that starts at a syllable takes just the syllable: its five characters come to 4, 6,
10, 12 and 16 bits. -/
theorem boundedDecode_syllableText (v : Chunk) (idx : Nat) (rest : List Byte) :
    boundedDecode 16 0 0 idx (syllableText v ++ rest) = .ok (v.setWidth 64) 16 (idx + 4) := by
  have hvalue : v.setWidth 64 = BitVec.ofNat 64 (textValue 0 (syllableText v)) := by
    rw [textValue_syllableText, BitVec.ofNat_toNat]
  rw [hvalue]
  simp [syllableText, syllableChar, boundedDecode_cons, textValue, CharClass.weight]

/-- The first k syllables and separators, and syllable k. -/
theorem proquintText_syllable_last {len : Nat} (v : BitVec len) (n k : Nat) :
    proquintText v n (6 * k + 5) = proquintText v n (6 * k) ++ syllableText (chunk v n k) := by
  have hsep := proquintText_syllable v n k
  rw [show 6 * k + 6 = 6 * k + 5 + 1 from rfl, proquintText_append] at hsep
  exact (List.append_inj' hsep rfl).1

/-- The proquint from cell 6k on begins with syllable k. -/
theorem proquintText_drop {len : Nat} (v : BitVec len) {n k : Nat} (hk : k < n) :
    ∃ rest, (proquintText v n (6 * n - 1)).drop (6 * k) = syllableText (chunk v n k) ++ rest := by
  obtain ⟨m, hm⟩ : ∃ m, 6 * n - 1 = 6 * k + 5 + m := ⟨6 * n - 1 - (6 * k + 5), by omega⟩
  have hlength : (proquintText v n (6 * k)).length = 6 * k := by rw [proquintText, List.length_map, List.length_range]
  rw [hm, proquintText_append, proquintText_syllable_last, List.append_assoc, List.drop_left' hlength]
  exact ⟨_, rfl⟩

/-- Cell 6k + 5 of a proquint holds a separator, or does not exist. -/
theorem proquintText_noSignificantAt {len : Nat} (v : BitVec len) (n m k : Nat) :
    noSignificantAt (proquintText v n m) (6 * k + 5) := by
  intro c hc
  obtain ⟨i, hi, rfl⟩ : ∃ i, (List.range m)[6 * k + 5]? = some i ∧ proquintCell v n i = c := by
    simpa only [proquintText, List.getElem?_map, Option.map_eq_some_iff] using hc
  obtain ⟨-, rfl⟩ := List.getElem?_eq_some_iff.1 hi
  rw [List.getElem_range, proquintCell, if_pos (by omega), significant_eq_false_iff, classify_separator]

/-- Call k on a proquint gives chunk k and ends at cell 6k + 4. -/
theorem boundedDecode_proquintText {len : Nat} (v : BitVec len) {n k : Nat} (hk : k < n) :
    boundedDecode 16 0 0 (6 * k) ((proquintText v n (6 * n - 1)).drop (6 * k)) =
      .ok ((chunk v n k).setWidth 64) 16 (6 * k + 4) := by
  obtain ⟨rest, hrest⟩ := proquintText_drop v hk
  rw [hrest, boundedDecode_syllableText]

/-- The calls from call k on give the chunks from chunk k on, and no error. -/
theorem segmentsDecode_proquintText {len : Nat} (v : BitVec len) {n k todo : Nat} (h : k + todo ≤ n) :
    segmentsDecode 1 (proquintText v n (6 * n - 1)) todo (6 * k) = ((List.range' k todo).map (chunk v n), none) := by
  induction todo generalizing k with
  | zero => rfl
  | succ todo ih =>
    have hnext : segmentsDecode 1 (proquintText v n (6 * n - 1)) todo (6 * k + 4 + 1) =
        ((List.range' (k + 1) todo).map (chunk v n), none) :=
      (segmentsDecode_start_succ 1 todo (proquintText_noSignificantAt v n _ k)).symm.trans (ih (k := k + 1) (by omega))
    rw [segmentsDecode_succ_of_ok (boundedDecode_proquintText v (by omega)), hnext, List.range'_succ, List.map_cons,
      BitVec.setWidth_setWidth_of_le _ (by decide), BitVec.setWidth_eq]

/-- The calls from call k on end at cells 6k + 4, 6(k + 1) + 4 and so on. -/
theorem segmentEnds_proquintText {len : Nat} (v : BitVec len) {n k todo : Nat} (h : k + todo ≤ n) :
    segmentEnds 1 (proquintText v n (6 * n - 1)) todo (6 * k) = (List.range' k todo).map fun j => 6 * j + 4 := by
  induction todo generalizing k with
  | zero => rfl
  | succ todo ih =>
    have hnext : segmentEnds 1 (proquintText v n (6 * n - 1)) todo (6 * k + 4 + 1) =
        (List.range' (k + 1) todo).map fun j => 6 * j + 4 :=
      (segmentEnds_start_succ 1 todo (proquintText_noSignificantAt v n _ k)).symm.trans (ih (k := k + 1) (by omega))
    rw [segmentEnds_succ_of_ok (boundedDecode_proquintText v (by omega)), hnext, List.range'_succ, List.map_cons]

/-- The operand's segments are the eight chunks of OPA. -/
theorem operandSegment_eq_chunk (s : State) (k : Nat) : operandSegment s k = chunk s.opa 8 k := rfl

/-- The eight chunks of OPA put together are OPA. -/
theorem joinValue_chunks (s : State) : joinValue ((List.range' 0 8).map (chunk s.opa 8)) = s.opa :=
  (joinSegments_eq (Vector.ofFn fun k => operandSegment s k)).symm.trans (operandIp6_eq s)

/-- DEC.IP6 on the proquint of the operand: the segments in SEG, and the operand in RES. -/
theorem segmentsEffect_of_proquintText {s t u : State} (h : segmentsEffect 1 t u)
    (htext : t.text = proquintText s.opa 8 47) :
    (∀ (k : Nat) (hk : k < 8), u.seg[k] = operandSegment s k) ∧ u.status = 0 ∧ u.res = s.opa := by
  obtain ⟨-, hseg, hok, -⟩ := h
  have hsegs : segmentsDecode 1 t.text 8 0 = ((List.range' 0 8).map (chunk s.opa 8), none) :=
    htext ▸ segmentsDecode_proquintText s.opa (n := 8) (k := 0) (by decide)
  rw [hsegs] at hseg hok
  obtain ⟨hstatus, hres⟩ := hok rfl
  refine ⟨fun k hk => ?_, hstatus, hres.trans (joinValue_chunks s)⟩
  have hlist : u.seg.toList = (List.range' 0 8).map (chunk s.opa 8) := by
    rw [hseg, List.drop_eq_nil_of_le (by simp), List.append_nil]
  rw [operandSegment_eq_chunk, ← Vector.getElem_toList (by simpa using hk)]
  simp only [hlist, List.getElem_map, List.getElem_range', Nat.one_mul, Nat.zero_add]

/-- Settles O53: on the operand's own proquint, call k of DEC.IP6 takes syllable k, which is chunk k of OPA. -/
theorem ipv6AddressesRoundTrip : Obligations.Ipv6AddressesRoundTrip := by
  intro s
  obtain ⟨t, ht, heffect⟩ := runEncode_effect s.opa 8 s (by decide) (by decide)
  obtain ⟨hreadable, htext⟩ := copyOutputToInput_text (by decide) heffect
  obtain ⟨u, hu, hdecode⟩ := runDecodeIp6_effect hreadable 1
  obtain ⟨hseg, hstatus, hres⟩ := segmentsEffect_of_proquintText hdecode htext
  refine ⟨t, u, (exec_encIp6 s).trans ht, encodeEffect_olen heffect, hu, ?_, hseg, hstatus, hres, fun k _ => ?_⟩
  · rw [htext]
    exact segmentEnds_proquintText s.opa (n := 8) (k := 0) (by decide)
  · rw [resultSegment, hres, operandSegment]

end Sys2Proof.Machine
end

section
/-! SUPPORT. 60_exceptions.md: an operation that does not end with STATUS = OK has raised an error its row of the table
allows (R84, R86), and every code of the table is reached (R84). -/

namespace Sys2Proof.Machine

/-! ### The error an operation ends with -/

/-- DECX never gives InputInvalid: its one comparison has the outcomes equal, less and greater (R59, R85). -/
theorem exactVerdict_err {n : Width} {e : Engine} {k : ErrKind} (h : exactVerdict n e = .err k) :
    k ≠ .inputInvalid := by
  unfold exactVerdict at h
  split at h <;> cases h <;> nofun

/-- DECB never gives InputTooLarge: a count that passes N is InputInvalid, and the end of the text InputTooSmall (R60). -/
theorem boundedScan_err {n : Width} {s : State} {todo : Nat} {e e' : Engine} {k : ErrKind}
    (h : boundedScan n s todo e = .ok (e', .err k)) : k ≠ .inputTooLarge := by
  induction todo generalizing e with
  | zero => cases h; nofun
  | succ todo ih =>
    simp only [boundedScan] at h
    split at h
    · split at h
      · cases h
      · cases h; nofun
      · exact ih h
    · cases h

/-- R79's loop fails only as its calls of DECB do. -/
theorem segmentLoop_err {skip : Nat} {s : State} {todo start : Nat} {e e' : Engine} {seg seg' : Vector (BitVec 16) 8}
    {k : ErrKind} (h : segmentLoop skip s todo start e seg = .ok (e', seg', some k)) : k ≠ .inputTooLarge := by
  induction todo generalizing start e seg with
  | zero => cases h
  | succ todo ih =>
    simp only [segmentLoop] at h
    split at h
    · exact ih h
    · rename_i hd; cases h; exact boundedScan_err hd
    · cases h

theorem runEncode_status {len : Nat} {v : BitVec len} {n : Nat} {s t : State} (h1 : 1 ≤ n) (hn : n ≤ 8)
    (h : runEncode v n s = .next t) : t.status = statusOk := by
  obtain ⟨t', ht, hregs, -⟩ := runEncode_effect v n s h1 hn
  obtain rfl : t' = t := Host.Outcome.next.inj (ht.symm.trans h)
  rw [hregs, statusOk]

/-- An exact-width decode that does not end with OK raises InputTooSmall or InputTooLarge. -/
theorem runDecode_raises {n : Width} {s t : State} (h : runDecode n s = .next t) (hst : t.status ≠ statusOk) :
    ∃ k u, t = raiseErr k u ∧ k ≠ .inputInvalid := by
  obtain ⟨e, r, hd, ⟨v, m, -, rfl⟩ | ⟨k, rfl, rfl⟩⟩ := runDecode_next h
  · exact absurd rfl hst
  · exact ⟨k, _, rfl, exactVerdict_err (decx_ok hd).2.symm⟩

/-- DEC.IP6 that does not end with OK raises InputTooSmall or InputInvalid. -/
theorem runDecodeIp6_raises {skip : Nat} {s t : State} (h : runDecodeIp6 skip s = .next t)
    (hst : t.status ≠ statusOk) : ∃ k u, t = raiseErr k u ∧ k ≠ .inputTooLarge := by
  obtain ⟨e, seg, r, hloop, ⟨-, rfl⟩ | ⟨k, rfl, rfl⟩⟩ := runDecodeIp6_next h
  · exact absurd rfl hst
  · exact ⟨k, _, rfl, segmentLoop_err hloop⟩

/-- An operation that does not end with OK has raised an error that R84's table allows it. -/
theorem operation_raises {i : Instr} {s t : State} (hi : isOperation i = true) (h : exec i s = .next t)
    (hst : t.status ≠ statusOk) : ∃ k u, t = raiseErr k u ∧ statusPossible i k.code = true := by
  have dec (n : Width) (h : runDecode n s = .next t) : ∃ k u, t = raiseErr k u ∧ decide (k.code ≠ 3) = true := by
    obtain ⟨k, u, ht, hk⟩ := runDecode_raises h hst
    cases k with
    | inputTooSmall | inputTooLarge => exact ⟨_, u, ht, rfl⟩
    | inputInvalid => exact absurd rfl hk
  cases i with
  | encU16 => exact absurd (runEncode_status (n := 1) (by decide) (by decide) h) hst
  | encU32 => exact absurd (runEncode_status (n := 2) (by decide) (by decide) h) hst
  | encU64 => exact absurd (runEncode_status (n := 4) (by decide) (by decide) h) hst
  | encIp4 => exact absurd (runEncode_status (n := 2) (by decide) (by decide) h) hst
  | encIp6 => exact absurd (runEncode_status (n := 8) (by decide) (by decide) h) hst
  | decU16 => exact dec .w16 h
  | decU32 => exact dec .w32 h
  | decU64 => exact dec .w64 h
  | decIp4 => exact dec .w32 h
  | decIp6 =>
    obtain ⟨k, u, ht, hk⟩ := runDecodeIp6_raises h hst
    cases k with
    | inputTooSmall | inputInvalid => exact ⟨_, u, ht, rfl⟩
    | inputTooLarge => exact absurd rfl hk
  | decx16 | decx32 | decx64 | decb16 | decb32 | decb64 | sylenc => cases hi

/-- Settles O23: such an operation has raised, and `raiseErr` leaves nothing of a value. -/
theorem errorsExposeNoPartialValue : Obligations.ErrorsExposeNoPartialValue := by
  intro i s t hi h hst
  obtain ⟨k, u, rfl, -⟩ := operation_raises hi h hst
  exact ⟨rfl, rfl, rfl, rfl⟩

/-! ### The codes of the table (R84) -/

theorem statusPossible_statusOk {i : Instr} (hi : isOperation i = true) : statusPossible i statusOk = true := by
  cases i with
  | encU16 | encU32 | encU64 | encIp4 | encIp6 | decU16 | decU32 | decU64 | decIp4 | decIp6 => rfl
  | decx16 | decx32 | decx64 | decb16 | decb32 | decb64 | sylenc => cases hi

/-- An operation ends with a code of its row. -/
theorem statusPossible_of_exec {i : Instr} {s t : State} (hi : isOperation i = true) (h : exec i s = .next t) :
    statusPossible i t.status = true := by
  by_cases hst : t.status = statusOk
  · rw [hst]; exact statusPossible_statusOk hi
  · obtain ⟨k, u, rfl, hk⟩ := operation_raises hi h hst
    exact hk

/-- STATUS has a code for OK and one for each error kind, and no other (R83). -/
theorem eq_statusOk_or_code (st : BitVec 2) : st = statusOk ∨ ∃ k : ErrKind, st = k.code := by
  have hcases : ∀ st : BitVec 2, st = 0 ∨ st = 1 ∨ st = 2 ∨ st = 3 := by decide
  obtain rfl | rfl | rfl | rfl := hcases st
  · exact .inl rfl
  · exact .inr ⟨.inputTooSmall, rfl⟩
  · exact .inr ⟨.inputTooLarge, rfl⟩
  · exact .inr ⟨.inputInvalid, rfl⟩

/-- The reset state with a vowel and sixteen consonants as its text: more than 64 bits, and after the third consonant
two bits short of a segment, so that the fourth straddles its end. -/
def straddlingInput : State :=
  { State.reset with
    tlen := 17
    tib := (vowChar 0 :: List.replicate 16 (consChar 0)).mapIdx fun i c => (i, c) }

theorem straddlingInput_readable : straddlingInput.readable := by decide

theorem textBits_straddlingInput : textBits straddlingInput.text = 66 := by decide

theorem segmentsDecode_straddlingInput : (segmentsDecode 1 straddlingInput.text 8 0).2 = some .inputInvalid := by decide

theorem reset_readable : State.reset.readable := nofun

/-- An exact-width decode reaches OK on an encode's text, InputTooSmall on the empty text and InputTooLarge on a long
one. -/
theorem exists_runDecode_status (n : Width) {st : BitVec 2} (hst : st ≠ 3) :
    ∃ s t, runDecode n s = .next t ∧ t.status = st := by
  obtain rfl | ⟨k, rfl⟩ := eq_statusOk_or_code st
  · obtain ⟨t, u, -, hu, hstatus, -⟩ :=
      runDecode_copyOutputToInput (w := n) 0 (n.bits / 16) State.reset (by cases n <;> rfl)
    exact ⟨_, u, hu, hstatus⟩
  · cases k with
    | inputTooSmall =>
      obtain ⟨t, ht, -, -, hsmall, -⟩ := runDecode_spec reset_readable n
      have hbits : textBits State.reset.text < n.bits := Nat.lt_of_lt_of_le (by decide) (width_bits_pos n)
      exact ⟨_, t, ht, (hsmall hbits).1⟩
    | inputTooLarge =>
      obtain ⟨t, ht, -, -, -, hlarge⟩ := runDecode_spec straddlingInput_readable n
      have hbits : n.bits < textBits straddlingInput.text := by
        rw [textBits_straddlingInput]
        exact (width_bits_le n).trans_lt (by decide)
      exact ⟨_, t, ht, (hlarge hbits).1⟩
    | inputInvalid => exact absurd rfl hst

/-- DEC.IP6 on a readable text ends with the reference's first error. -/
theorem decIp6_status_of_err {s : State} (h : s.readable) {k : ErrKind}
    (hk : (segmentsDecode 1 s.text 8 0).2 = some k) : ∃ t, exec .decIp6 s = .next t ∧ t.status = k.code := by
  obtain ⟨t, ht, -, -, -, herr⟩ := runDecodeIp6_effect h 1
  exact ⟨t, ht, (herr k hk).1⟩

/-- DEC.IP6 reaches OK on an encode's text, InputTooSmall on the empty text and InputInvalid on a straddling one. -/
theorem exists_decIp6_status {st : BitVec 2} (hst : st ≠ 2) : ∃ s t, exec .decIp6 s = .next t ∧ t.status = st := by
  obtain rfl | ⟨k, rfl⟩ := eq_statusOk_or_code st
  · obtain ⟨t, u, -, -, hu, -, -, hstatus, -⟩ := ipv6AddressesRoundTrip State.reset
    exact ⟨_, u, hu, hstatus⟩
  · cases k with
    | inputTooSmall => exact ⟨_, decIp6_status_of_err reset_readable rfl⟩
    | inputTooLarge => exact absurd rfl hst
    | inputInvalid => exact ⟨_, decIp6_status_of_err straddlingInput_readable segmentsDecode_straddlingInput⟩

/-- Every code of an operation's row is reached; an encode's row has OK alone. -/
theorem exists_exec_status {i : Instr} {st : BitVec 2} (hi : isOperation i = true) (hst : statusPossible i st = true) :
    ∃ s t, exec i s = .next t ∧ t.status = st := by
  have enc (hrow : ∀ st', statusPossible i st' = true → st' = statusOk) :
      ∃ s t, exec i s = .next t ∧ t.status = st := by
    obtain ⟨t, ht⟩ := operation_completes hi reset_readable
    exact ⟨_, t, ht, (hrow _ (statusPossible_of_exec hi ht)).trans (hrow _ hst).symm⟩
  cases i with
  | encU16 | encU32 | encU64 | encIp4 | encIp6 => exact enc fun _ => of_decide_eq_true
  | decU16 => exact exists_runDecode_status .w16 (of_decide_eq_true hst)
  | decU32 => exact exists_runDecode_status .w32 (of_decide_eq_true hst)
  | decU64 => exact exists_runDecode_status .w64 (of_decide_eq_true hst)
  | decIp4 => exact exists_runDecode_status .w32 (of_decide_eq_true hst)
  | decIp6 => exact exists_decIp6_status (of_decide_eq_true hst)
  | decx16 | decx32 | decx64 | decb16 | decb32 | decb64 | sylenc => cases hi

/-- Settles O22: an operation ends with codes of its row only, and with each of them on some text or operand. -/
theorem statusCodesAreThoseOfTheTable : Obligations.StatusCodesAreThoseOfTheTable := by
  refine fun i st hi => ⟨exists_exec_status hi, ?_⟩
  rintro ⟨s, t, h, rfl⟩
  exact statusPossible_of_exec hi h

end Sys2Proof.Machine
end

section
/-! SUPPORT. 93_implementation_defined.md U3 (log 4): where a text has an unwritten cell, every decode that reads that
far stops there. The cells before it are a text of their own, on which the decode runs out. -/

namespace Sys2Proof.Machine

/-! ### The cells before the unwritten one -/

/-- The characters in the cells from `i` up to `k`. -/
def State.cells (s : State) (i k : Nat) : List Byte := (List.range' i (k - i)).filterMap (Memory.read s.tib)

theorem cells_of_read {s : State} {i k : Nat} {c : Byte} (hik : i < k) (hc : Memory.read s.tib i = some c) :
    s.cells i k = c :: s.cells (i + 1) k := by
  rw [State.cells, show k - i = k - (i + 1) + 1 by omega, List.range'_succ, List.filterMap_cons_some hc, State.cells]

/-- `s` with its text ended at cell `k`. -/
def State.endedAt (s : State) (k : Nat) : State := { s with tlen := k }

theorem endedAt_text (s : State) (k : Nat) : (s.endedAt k).text = s.cells 0 k := by
  rw [State.cells, ← List.range_eq_range']
  rfl

/-- The text that ends at `k`, from cell `start` on, is the cells from there up to `k`. -/
theorem endedAt_text_drop {s : State} {start k : Nat} (h : (s.endedAt k).readable) (hstart : start ≤ k) :
    (s.endedAt k).text.drop start = s.cells start k := by
  induction start with
  | zero => exact endedAt_text s k
  | succ start ih =>
    obtain ⟨c, hc⟩ : ∃ c, Memory.read s.tib start = some c := Option.isSome_iff_exists.1 (h start hstart)
    rw [← List.tail_drop, ih (by omega), cells_of_read hstart hc, List.tail_cons]

/-! ### The scans -/

section Unwritten
variable {s : State} {k : Nat} (hk : k < s.tlen) (hnone : Memory.read s.tib k = none)
include hk hnone

theorem textRead_of_unwritten : textRead s k = .error (.unwrittenCell k) := by
  simp [textRead, hk, hnone]

/-- DECX's scan stops at the unwritten cell if it has cells up to there to do. -/
theorem exactScan_of_unwritten {todo : Nat} {e : Engine} (hcur : e.cur ≤ k) (htodo : k < e.cur + todo)
    (hcells : ∀ j, e.cur ≤ j → j < k → (Memory.read s.tib j).isSome) :
    exactScan s todo e = .error (.unwrittenCell k) := by
  induction todo generalizing e with
  | zero => omega
  | succ todo ih =>
    obtain heq | hlt := Nat.eq_or_lt_of_le hcur
    · rw [exactScan, heq, textRead_of_unwritten hk hnone]
    · obtain ⟨c, hc⟩ := Option.isSome_iff_exists.1 (hcells e.cur (Nat.le_refl _) hlt)
      rw [exactScan, textRead_ok_iff.2 ⟨hlt.trans hk, hc⟩]
      exact ih hlt (by simp only; omega) fun j hj => hcells j (Nat.le_of_succ_le hj)

/-- DECB's scan stops there too if the cells up to there hold fewer bits than are still wanted. -/
theorem boundedScan_of_unwritten {n : Width} {todo : Nat} {e : Engine} (hcur : e.cur ≤ k) (htodo : k < e.cur + todo)
    (hcells : ∀ j, e.cur ≤ j → j < k → (Memory.read s.tib j).isSome)
    (hbits : e.bitcnt.toNat + textBits (s.cells e.cur k) < n.bits) :
    boundedScan n s todo e = .error (.unwrittenCell k) := by
  induction todo generalizing e with
  | zero => omega
  | succ todo ih =>
    obtain heq | hlt := Nat.eq_or_lt_of_le hcur
    · rw [boundedScan, heq, textRead_of_unwritten hk hnone]
    · obtain ⟨c, hc⟩ := Option.isSome_iff_exists.1 (hcells e.cur (Nat.le_refl _) hlt)
      rw [cells_of_read hlt hc, textBits] at hbits
      have hcnt : (accum c e).bitcnt.toNat ≤ e.bitcnt.toNat + (classify c).weight := by
        rw [accum_bitcnt]
        exact Nat.min_le_left _ _
      have hless : compareCount (accum c e).bitcnt n.bits = .lt := compareCount_lt_iff.2 (by omega)
      simp only [boundedScan, textRead_ok_iff.2 ⟨hlt.trans hk, hc⟩, hless, accum_cur]
      exact ih hlt (by simp only; omega) (fun j hj => hcells j (Nat.le_of_succ_le hj)) (by simp only; omega)

/-! ### The procedures -/

theorem decx_of_unwritten (hcells : ∀ j < k, (Memory.read s.tib j).isSome) (n : Width) :
    decx n s = .error (.unwrittenCell k) := by
  rw [decx, exactScan_of_unwritten hk hnone (Nat.zero_le k) (by simpa using hk) fun j _ => hcells j]

theorem decb_of_unwritten {n : Width} {start : Nat} (hstart : start ≤ k)
    (hcells : ∀ j, start ≤ j → j < k → (Memory.read s.tib j).isSome)
    (hshort : boundedDecode n.bits 0 0 start (s.cells start k) = .err .inputTooSmall) :
    decb n start s = .error (.unwrittenCell k) := by
  rw [boundedDecode_tooSmall_iff n.zero_lt_bits] at hshort
  rw [decb, Nat.min_eq_left (hstart.trans hk.le)]
  exact boundedScan_of_unwritten hk hnone hstart (by simp only; omega) hcells hshort

/-- R79's loop makes the calls it makes on the text that ends at the unwritten cell, and where one of those runs out,
it stops there. A call that ends with a value ends below `k`, so the next one starts at `k` at most. -/
theorem segmentLoop_of_unwritten (hcells : ∀ j < k, (Memory.read s.tib j).isSome) {todo start : Nat} {e : Engine}
    {seg : Vector (BitVec 16) 8} (hstart : start ≤ k)
    (hshort : (segmentsDecode 1 (s.cells 0 k) todo start).2 = some .inputTooSmall) :
    segmentLoop 1 s todo start e seg = .error (.unwrittenCell k) := by
  have hr : (s.endedAt k).readable := hcells
  induction todo generalizing start e seg with
  | zero => cases hshort
  | succ todo ih =>
    have hdrop : (s.cells 0 k).drop start = s.cells start k := by
      rw [← endedAt_text, endedAt_text_drop hr hstart]
    cases hcall : boundedDecode 16 0 0 start ((s.cells 0 k).drop start) with
    | err x =>
      rw [segmentsDecode_succ_of_err hcall] at hshort
      cases hshort
      rw [hdrop] at hcall
      rw [segmentLoop, decb_of_unwritten (n := .w16) hk hnone hstart (fun j _ => hcells j) hcall]
    | ok g m idx =>
      obtain ⟨-, taken, rest, hsplit, hidx, -⟩ := boundedDecode_ok hcall
      have hnext : idx + 1 ≤ k := by
        have hlen := congrArg List.length hsplit
        rw [← endedAt_text, List.length_drop, text_length hr, List.length_append] at hlen
        simp only [State.endedAt] at hlen
        omega
      obtain ⟨e', hdecb, -⟩ := decb_eq hr .w16 start
      rw [endedAt_text, show Width.w16.bits = 16 from rfl, hcall] at hdecb
      have hsame : decb .w16 start s = .ok (e', .ok g m idx) :=
        decb_of_continuation (s := s.endedAt k) hk.le (fun _ _ => rfl) hdecb nofun
      rw [segmentsDecode_succ_of_ok hcall] at hshort
      simp only [segmentLoop, hsame]
      exact ih hnext hshort

/-! ### The instructions -/

theorem runDecode_of_unwritten (hcells : ∀ j < k, (Memory.read s.tib j).isSome) (n : Width) :
    runDecode n s = .fault (.unwrittenCell k) := by
  rw [runDecode, decx_of_unwritten hk hnone hcells]

theorem runExact_of_unwritten (hcells : ∀ j < k, (Memory.read s.tib j).isSome) (n : Width) :
    runExact n s = .fault (.unwrittenCell k) := by
  rw [runExact, decx_of_unwritten hk hnone hcells]

theorem exec_exact_of_unwritten (hcells : ∀ j < k, (Memory.read s.tib j).isSome) :
    ∀ i ∈ [Instr.decU16, .decU32, .decU64, .decIp4, .decx16, .decx32, .decx64],
      exec i s = .fault (.unwrittenCell k) := by
  have hdec := runDecode_of_unwritten hk hnone hcells
  have hproc := runExact_of_unwritten hk hnone hcells
  simp only [List.forall_mem_cons, List.not_mem_nil, false_imp_iff, implies_true, and_true]
  exact ⟨hdec .w16, hdec .w32, hdec .w64, hdec .w32, hproc .w16, hproc .w32, hproc .w64⟩

end Unwritten

/-- Settles O55: each scan stops at the unwritten cell, if the cells before it do not end the scan first. -/
theorem anUnwrittenCellStopsWhatReadsIt : Obligations.AnUnwrittenCellStopsWhatReadsIt := by
  intro s k hk hnone
  refine ⟨exec_exact_of_unwritten hk hnone, fun n start hstart hcells hshort => ?_, fun hcells hshort => ?_⟩
  · rw [exec_boundedOf, runBounded, decb_of_unwritten hk hnone hstart hcells hshort]
  · have hexec : exec .decIp6 s = runDecodeIp6 1 s := rfl
    rw [List.range_eq_range'] at hshort
    rw [hexec, runDecodeIp6, segmentLoop_of_unwritten hk hnone hcells (Nat.zero_le k) hshort]

end Sys2Proof.Machine
end

section
/-! SUPPORT. 70_reset_and_hazards.md: what the host's moves do (R93 to R96, R99), and the block's turn on an operation
that runs or that the host has spoiled (R93, R94, R98). -/

namespace Sys2Proof.Machine

/-! ### The block's turn -/

/-- The block's turn comes as a pending move or with nothing pending (log 2). -/
theorem step_of_turn {s : State} {rest : List Move} (h : s.pending = [] ∧ rest = [] ∨ s.pending = .run :: rest) :
    step s = perform (blockTurn { s with pending := rest }) := by
  obtain ⟨hp, rfl⟩ | hp := h
  · rw [step_nil hp, ← hp]
  · rw [step_cons hp, moveAction]

theorem blockTurn_of_running {s : State} {i : Instr} (hb : s.busy = true) (hs : s.spoiled = false)
    (hd : decode (.cmd s.op) = .ok i) : blockTurn s = .execute i s := by
  simp [blockTurn, hb, hs, hd]

theorem blockTurn_of_spoiled {s : State} (hb : s.busy = true) (hs : s.spoiled = true) :
    blockTurn s = .finish (.next (completeSpoiled s)) := by
  simp [blockTurn, hb, hs]

/-- Settles O6: a running operation that nothing has spoiled is executed in the block's turn. -/
theorem stepRunsTheSelectedOperation : Obligations.StepRunsTheSelectedOperation := by
  intro s i hb hs hd
  have hturn (rest : List Move) : blockTurn { s with pending := rest } = .execute i { s with pending := rest } :=
    blockTurn_of_running hb hs hd
  refine ⟨fun hp => ?_, fun rest hp => ?_⟩
  · rw [step_nil hp, blockTurn_of_running hb hs hd, perform_execute]
  · rw [step_of_turn (.inr hp), hturn rest, perform_execute]

/-- An encode completes whatever has been written (R5 "total"). -/
theorem encode_completes {i : Instr} (hi : isOperation i = true) (hr : readsText i = false) (s : State) :
    ∃ t, exec i s = .next t := by
  obtain ⟨hu16, hu32, hip4, hu64, hip6⟩ := encodeLengths s
  cases i with
  | encU16 => exact hu16.imp fun _ ht => ht.1
  | encU32 => exact hu32.imp fun _ ht => ht.1
  | encU64 => exact hu64.imp fun _ ht => ht.1
  | encIp4 => exact hip4.imp fun _ ht => ht.1
  | encIp6 => exact hip6.imp fun _ ht => ht.1
  | decU16 | decU32 | decU64 | decIp4 | decIp6 | decx16 | decx32 | decx64 | decb16 | decb32 | decb64 => cases hr
  | sylenc => cases hi

/-- An operation whose inputs have been written completes: a decode's text is then readable. -/
theorem operation_completes_of_inputsWritten {i : Instr} {s : State} (hi : isOperation i = true)
    (hw : s.inputsWritten i) : ∃ t, exec i s = .next t ∧ t.busy = false ∧ t.done = true := by
  obtain ⟨-, htext, -⟩ := hw
  have hnext : ∃ t, exec i s = .next t := by
    cases hr : readsText i with
    | false => exact encode_completes hi hr s
    | true => exact operation_completes hi (htext hr).2
  obtain ⟨t, ht⟩ := hnext
  obtain ⟨-, -, hcomplete, -⟩ := exec_next_outputs ht
  exact ⟨t, ht, hcomplete hi⟩

/-- The block's turn on an accepted operation ends it, spoiled or not. -/
theorem blockTurn_completes {s : State} (h : s.Inv) (hb : s.busy = true) :
    ∃ t, perform (blockTurn s) = .next t ∧ t.busy = false ∧ t.done = true := by
  cases hs : s.spoiled with
  | true => exact ⟨completeSpoiled s, by rw [blockTurn_of_spoiled hb hs, perform_finish], rfl, rfl⟩
  | false =>
    obtain ⟨i, hi⟩ := exists_encode_of_typeLegal (h.busy_legal hb hs)
    have hd : decode (.cmd s.op) = .ok i := hi ▸ decode_encode i
    rw [blockTurn_of_running hb hs hd, perform_execute]
    exact operation_completes_of_inputsWritten (decodeCmd_isOperation hd) (h.busy_written hb hs i hd)

/-- Settles O17: by the invariant an operation that nothing has spoiled runs under a legal OP on written inputs. -/
theorem everyAcceptedOperationCompletes : Obligations.EveryAcceptedOperationCompletes := by
  intro s h hb hturn
  obtain hp | ⟨rest, hp⟩ := hturn
  · rw [step_nil hp]
    exact blockTurn_completes h hb
  · have hrest : { s with pending := rest }.Inv := h.congr rfl rfl rfl rfl rfl rfl rfl rfl
    rw [step_of_turn (.inr hp)]
    exact blockTurn_completes hrest hb

/-! ### The outputs between operations -/

/-- `t` holds the outputs of `s`: STATUS, RES, OLEN, TOB, BUSY and DONE (10_state.md R17 to R20, R25). -/
def sameOutputs (s t : State) : Prop :=
  t.status = s.status ∧ t.res = s.res ∧ t.olen = s.olen ∧ t.tob = s.tob ∧ t.busy = s.busy ∧ t.done = s.done

theorem sameOutputs_refl (s : State) : sameOutputs s s := ⟨rfl, rfl, rfl, rfl, rfl, rfl⟩

theorem exec_procedure_sameOutputs {i : Instr} {s t : State} (hi : isOperation i = false) (h : exec i s = .next t) :
    sameOutputs s t := by
  obtain ⟨-, -, -, hproc⟩ := exec_next_outputs h
  obtain ⟨hbusy, hdone, hstatus, hres, holen, htob⟩ := hproc hi
  exact ⟨hstatus, hres, holen, htob, hbusy, hdone⟩

theorem blockTurn_sameOutputs {s t : State} (hb : s.busy = false) (h : perform (blockTurn s) = .next t) :
    sameOutputs s t := by
  rw [blockTurn_of_idle hb] at h
  cases h
  exact sameOutputs_refl s

/-- While the block is idle every move but Start and reset leaves the outputs alone. -/
theorem moveAction_sameOutputs {m : Move} {s t : State} (hb : s.busy = false) (hm : m.endsOutputs = false)
    (h : perform (moveAction m s) = .next t) : sameOutputs s t := by
  cases m with
  | start | reset => cases hm
  | writeOp | writeOpa | writeTlen | writeTib => cases h; exact sameOutputs_refl s
  | read p =>
    obtain ⟨v, n, rfl⟩ := hostRead_next h
    exact sameOutputs_refl s
  | run => exact blockTurn_sameOutputs hb h
  | engine code estart =>
    obtain ⟨i, hi, h⟩ := muxEngine_next h
    exact exec_procedure_sameOutputs hi h
  | syllable v => exact exec_procedure_sameOutputs (i := .sylenc v) rfl h

theorem step_sameOutputs {s t : State} (hb : s.busy = false) (h : step s = .next t)
    (hm : ∀ m rest, s.pending = m :: rest → m.endsOutputs = false) : sameOutputs s t := by
  obtain ⟨-, h⟩ | ⟨m, rest, hp, h⟩ := step_next h
  · exact blockTurn_sameOutputs hb h
  · have hsame : sameOutputs { s with pending := rest } t := moveAction_sameOutputs hb (hm m rest hp) h
    exact hsame

/-- Settles O20: neither an idle block's turn nor a move other than Start and reset writes an output. -/
theorem outputsHoldUntilTheNextStart : Obligations.OutputsHoldUntilTheNextStart := by
  intro s t hb h hm
  obtain ⟨hstatus, hres, holen, htob, hbusy, hdone⟩ := step_sameOutputs hb h hm
  exact ⟨hstatus, hres, holen, fun i => by rw [htob], hbusy, hdone⟩

/-! ### Start -/

theorem step_start {s : State} {rest : List Move} (h : s.pending = .start :: rest) :
    step s = hostStart { s with pending := rest } := step_cons h

theorem hostStart_of_busy {s : State} (h : s.busy = true) : hostStart s = .refused .startWhileBusy := by
  simp [hostStart, h]

theorem hostStart_of_unwrittenOp {s : State} (hb : s.busy = false) (ho : s.written.op = false) :
    hostStart s = .fault (.unwrittenInput .op) := by
  simp [hostStart, hb, ho]

theorem hostStart_of_reserved {s : State} (hb : s.busy = false) (ho : s.written.op = true) (h : 5 ≤ s.op.toNat % 8) :
    hostStart s = .refused (.reservedOp s.op) := by
  simp [hostStart, hb, ho, decode_cmd_of_reserved h]

/-- Settles O4: such a Start is accepted. -/
theorem startIsAcceptedWhenIdle : Obligations.StartIsAcceptedWhenIdle := by
  intro s rest i hp hb hd hw
  have haccepts : hostStart { s with pending := rest } = .next (accept { s with pending := rest }) :=
    hostStart_accepts hb hd hw
  rw [step_start hp, haccepts, accept]

/-- Settles O5: Start looks at BUSY first, then at OP. -/
theorem startAtTheWrongTimeIsRefused : Obligations.StartAtTheWrongTimeIsRefused :=
  fun _ _ hp => ⟨fun hb => (step_start hp).trans (hostStart_of_busy hb),
    fun hb ho h => (step_start hp).trans (hostStart_of_reserved hb ho h)⟩

theorem missingInput_of_encode {i : Instr} {s : State} (hi : isOperation i = true) (hr : readsText i = false) :
    missingInput i s = missingOperand s := by
  cases i with
  | encU16 | encU32 | encU64 | encIp4 | encIp6 => rfl
  | decU16 | decU32 | decU64 | decIp4 | decIp6 | decx16 | decx32 | decx64 | decb16 | decb32 | decb64 => cases hr
  | sylenc => cases hi

theorem missingInput_of_readsText {i : Instr} {s : State} (hr : readsText i = true) :
    missingInput i s = missingText s := by
  cases i with
  | encU16 | encU32 | encU64 | encIp4 | encIp6 | sylenc => cases hr
  | decU16 | decU32 | decU64 | decIp4 | decIp6 | decx16 | decx32 | decx64 | decb16 | decb32 | decb64 => rfl

theorem missingOperand_of_unwritten {s : State} (h : s.written.opa = false) :
    missingOperand s = some (.unwrittenInput .opa) := by
  simp [missingOperand, h]

theorem missingText_of_unwrittenTlen {s : State} (h : s.written.tlen = false) :
    missingText s = some (.unwrittenInput .tlen) := by
  simp [missingText, h]

theorem missingText_of_unwrittenCell {s : State} {k : Nat} (h : s.written.tlen = true)
    (hk : firstUnwritten s.tib s.tlen = some k) : missingText s = some (.unwrittenCell k) := by
  simp [missingText, h, hk]

/-- What is missing does not depend on the moves to come. -/
theorem missingInput_withPending (i : Instr) (s : State) (rest : List Move) :
    missingInput i { s with pending := rest } = missingInput i s := by
  cases i <;> rfl

/-- A Start stops on the first input it finds missing (R94). -/
theorem step_start_missing {s : State} {rest : List Move} {i : Instr} {f : Fault} (hp : s.pending = .start :: rest)
    (hb : s.busy = false) (ho : s.written.op = true) (hd : decode (.cmd s.op) = .ok i)
    (hm : missingInput i s = some f) : step s = .fault f :=
  (step_start hp).trans (hostStart_missing hb ho hd ((missingInput_withPending i s rest).trans hm))

/-- Settles O54: the missing input is OP, or else the first the operation's row names. -/
theorem startOnUnwrittenInputsFaults : Obligations.StartOnUnwrittenInputsFaults := by
  intro s rest hp hb
  refine ⟨fun ho => (step_start hp).trans (hostStart_of_unwrittenOp hb ho), fun i ho hd => ⟨?_, ?_, ?_⟩⟩
  · intro hr hopa
    refine step_start_missing hp hb ho hd ?_
    rw [missingInput_of_encode (decodeCmd_isOperation hd) hr, missingOperand_of_unwritten hopa]
  · intro hr htlen
    refine step_start_missing hp hb ho hd ?_
    rw [missingInput_of_readsText hr, missingText_of_unwrittenTlen htlen]
  · intro hr htlen k hk hnone hbelow
    refine step_start_missing hp hb ho hd ?_
    have hfirst : firstUnwritten s.tib s.tlen = some k := firstUnwritten_some_iff.2 ⟨hk, hnone, hbelow⟩
    rw [missingInput_of_readsText hr, missingText_of_unwrittenCell htlen hfirst]

/-! ### The host's writes -/

theorem spoilIfBusy_of_idle {s : State} (h : s.busy = false) : s.spoilIfBusy = s := by
  have hmark : (s.spoiled || s.busy) = s.spoiled := by rw [h, Bool.or_false]
  rw [State.spoilIfBusy, hmark]

theorem spoilIfBusy_of_busy {s : State} (h : s.busy = true) : s.spoilIfBusy = { s with spoiled := true } := by
  rw [State.spoilIfBusy, h, Bool.or_true]

/-- The four writes: each spoils a running operation, and then writes its register or cell and nothing else. -/
theorem step_hostWrite {s u : State} {rest : List Move} (hu : { s with pending := rest }.spoilIfBusy = u) :
    (∀ v, s.pending = .writeOp v :: rest →
      step s = .next { u with op := v, written := { s.written with op := true } }) ∧
    (∀ v, s.pending = .writeOpa v :: rest →
      step s = .next { u with opa := v, written := { s.written with opa := true } }) ∧
    (∀ n, s.pending = .writeTlen n :: rest →
      step s = .next { u with tlen := n, written := { s.written with tlen := true } }) ∧
    (∀ i c, s.pending = .writeTib i c :: rest →
      ∃ tib, step s = .next { u with tib := tib } ∧
        ∀ k, Memory.read tib k = if k = i then some c else Memory.read s.tib k) := by
  subst hu
  exact ⟨fun _ hp => step_cons hp, fun _ hp => step_cons hp, fun _ hp => step_cons hp,
    fun i c hp => ⟨Memory.write s.tib i c, step_cons hp, memory_read_write s.tib i c⟩⟩

/-- Settles O9: a write into an idle block spoils nothing. -/
theorem hostWritesAnInput : Obligations.HostWritesAnInput := by
  intro s rest hb
  have hidle : { s with pending := rest }.spoilIfBusy = { s with pending := rest } := spoilIfBusy_of_idle hb
  exact step_hostWrite hidle

/-- Settles O10: a write into a running block spoils its operation, whose turn then draws its results freely. -/
theorem writesWhileBusySpoilOnlyTheOperation : Obligations.WritesWhileBusySpoilOnlyTheOperation := by
  refine ⟨fun s rest hb => ?_, fun s rest hb hs hturn => ?_⟩
  · have hspoil : { s with pending := rest }.spoilIfBusy = { s with pending := rest, spoiled := true } :=
      spoilIfBusy_of_busy hb
    exact step_hostWrite hspoil
  · have hdone : blockTurn { s with pending := rest } = .finish (.next (completeSpoiled { s with pending := rest })) :=
      blockTurn_of_spoiled hb hs
    refine ⟨completeSpoiled { s with pending := rest }, ?_, rfl⟩
    rw [step_of_turn hturn, hdone, perform_finish]

/-! ### The host's reads -/

theorem hostReadValue_of_specified {p : OutPort} {s : State} {v : Value} (h : specifiedOutput s p = some v) :
    hostReadValue p s = { s with hostData := v } := by
  simp only [hostReadValue, h]

/-- An unspecified read draws one free value (U4, log 9). -/
theorem hostReadValue_of_unspecified {p : OutPort} {s : State} (h : specifiedOutput s p = none) :
    ∃ v, hostReadValue p s = { s with hostData := v, free := s.free + 1 } := by
  simp only [hostReadValue, h]
  exact ⟨_, rfl⟩

/-- The output exists: of TOB, a cell below 47 (20_memory.md R25). -/
def OutPort.inBlock : OutPort → Prop
  | .tob i => i < 47
  | .status | .res | .olen | .busy | .done => True

theorem hostRead_of_inBlock {p : OutPort} (h : p.inBlock) (s : State) : hostRead p s = .next (hostReadValue p s) := by
  cases p with
  | tob i => exact if_pos h
  | status | res | olen | busy | done => rfl

/-- What is specified does not depend on the moves to come. -/
theorem specifiedOutput_withPending (p : OutPort) (s : State) (rest : List Move) :
    specifiedOutput { s with pending := rest } p = specifiedOutput s p := by
  cases p <;> rfl

section Reads
variable {s : State} {p : OutPort} {rest : List Move} (hp : s.pending = .read p :: rest)
include hp

theorem step_read : step s = hostRead p { s with pending := rest } := step_cons hp

theorem step_read_specified {v : Value} (hin : p.inBlock) (hv : specifiedOutput s p = some v) :
    step s = .next { s with pending := rest, hostData := v } := by
  rw [← specifiedOutput_withPending p s rest] at hv
  rw [step_read hp, hostRead_of_inBlock hin, hostReadValue_of_specified hv]

theorem step_read_unspecified (hin : p.inBlock) (hv : specifiedOutput s p = none) :
    ∃ v, step s = .next { s with pending := rest, hostData := v, free := s.free + 1 } := by
  rw [← specifiedOutput_withPending p s rest] at hv
  obtain ⟨v, hread⟩ := hostReadValue_of_unspecified hv
  exact ⟨v, by rw [step_read hp, hostRead_of_inBlock hin, hread]⟩

end Reads

theorem specifiedOutput_tob {s : State} {i : Nat} {c : Byte} (hd : s.done = true) (hi : i < s.olen.toNat)
    (hc : Memory.read s.tob i = some c) : specifiedOutput s (.tob i) = some (c.setWidth 128) := by
  simp [specifiedOutput, hd, hi, hc]

/-- While DONE = 0 only BUSY and DONE read as specified (R96). -/
theorem specifiedOutput_of_not_done {s : State} {p : OutPort} (hd : s.done = false) (hbusy : p ≠ .busy)
    (hdone : p ≠ .done) : specifiedOutput s p = none := by
  cases p with
  | busy => exact absurd rfl hbusy
  | done => exact absurd rfl hdone
  | status | res | olen | tob => simp [specifiedOutput, hd]

theorem specifiedOutput_tob_of_unspecified {s : State} {i : Nat}
    (h : s.done = false ∨ s.olen.toNat ≤ i ∨ Memory.read s.tob i = none) : specifiedOutput s (.tob i) = none := by
  obtain hd | hi | hc := h
  · exact specifiedOutput_of_not_done hd nofun nofun
  · rw [specifiedOutput, if_neg fun h => absurd h.2 (Nat.not_lt.2 hi)]
  · simp [specifiedOutput, hc]

/-- Settles O11: each of these reads is specified, and delivers the output itself. -/
theorem hostReadsTheOutputs : Obligations.HostReadsTheOutputs := fun _ _ =>
  ⟨fun hd =>
    ⟨fun hp => step_read_specified hp trivial (if_pos hd),
      fun hp => step_read_specified hp trivial (if_pos hd),
      fun hp => step_read_specified hp trivial (if_pos hd),
      fun _ _ hp hi hin hc => step_read_specified hp hin (specifiedOutput_tob hd hi hc)⟩,
    fun hp => step_read_specified hp trivial rfl,
    fun hp => step_read_specified hp trivial rfl⟩

/-- Settles O12: none of these reads is specified, and a cell from 47 up is not there to read. -/
theorem unspecifiedReadsChangeNoRegister : Obligations.UnspecifiedReadsChangeNoRegister := by
  intro s p rest hp
  refine ⟨fun hd h => ?_, ?_, ?_⟩
  · obtain rfl | rfl | rfl := h <;>
      exact step_read_unspecified hp trivial (specifiedOutput_of_not_done hd nofun nofun)
  · rintro i rfl hin h
    exact step_read_unspecified hp hin (specifiedOutput_tob_of_unspecified h)
  · rintro i rfl hi
    rw [step_read hp]
    exact if_neg (Nat.not_lt.2 hi)

/-! ### Reset -/

/-- Settles O13: the values R24 and R99 state, and empty buffers. -/
theorem resetLeavesTheBlockIdle : Obligations.ResetLeavesTheBlockIdle :=
  ⟨rfl, rfl, rfl, fun i => ⟨memory_read_nil i, memory_read_nil i⟩⟩

theorem step_reset {s : State} {rest : List Move} (h : s.pending = .reset :: rest) :
    step s = .next (hostReset { s with pending := rest }) := step_cons h

/-- Settles O14: a reset takes effect whatever BUSY is, and the reset state is idle. -/
theorem resetAbandonsTheOperation : Obligations.ResetAbandonsTheOperation :=
  fun _ _ hp => ⟨step_reset hp, _, step_reset hp, rfl, rfl⟩

end Sys2Proof.Machine
end
